-- ==== Sys2Proof/Word.lean ====
section
/-! DEFINITION. The bit vectors the spec names: bytes, 16-bit words, 12-bit addresses and the 4-bit numbers of
registers (00_scope.md R5, 30_encoding.md R71). -/

namespace Sys2Proof

/-- One byte: a general register, a timer, a byte of memory, the immediate `kk` (R20, R26, R34, R71). -/
abbrev Byte := BitVec 8

/-- Sixteen bits: an instruction word, `I`, `PC`, a stack entry (R22, R23, R25, R70). -/
abbrev Word := BitVec 16

/-- The 12-bit address immediate `nnn` (R71). -/
abbrev Addr12 := BitVec 12

/-- Four bits: the fields `op` and `n` (R71). -/
abbrev Nibble := BitVec 4

/-- The number of a general register, the fields `x` and `y` (R20, R71). -/
abbrev RegIdx := BitVec 4

/-- The number of VF, the register that also holds the flag (R21). -/
abbrev vF : RegIdx := 0xF#4

end Sys2Proof
end

