-- ==== Sys2Proof/Syntax.lean ====
section
/-! DEFINITION. The instructions: one constructor per row of spec/opcode_table.json, in the table's order
(30_encoding.md R74). Every operand has exactly the width of its field (R71, R73: "Any value 0 to 15 is legal"), so
every term is an instruction the encoding can write. -/

namespace Sys2Proof

/-- The 34 instructions (R74). -/
inductive Instr where
  /-- 00E0 CLS: clear the display (R190). -/
  | cls
  /-- 00EE RET: return from subroutine (R104). -/
  | ret
  /-- 1nnn JP nnn: jump (R105). -/
  | jp (nnn : Addr12)
  /-- 2nnn CALL nnn: call subroutine (R106). -/
  | call (nnn : Addr12)
  /-- 3xkk SE Vx, kk: skip if equal to immediate (R107). -/
  | seImm (x : RegIdx) (kk : Byte)
  /-- 4xkk SNE Vx, kk: skip if not equal to immediate (R108). -/
  | sneImm (x : RegIdx) (kk : Byte)
  /-- 5xy0 SE Vx, Vy: skip if registers equal (R109). -/
  | seReg (x y : RegIdx)
  /-- 6xkk LD Vx, kk: load immediate (R140). -/
  | ldImm (x : RegIdx) (kk : Byte)
  /-- 7xkk ADD Vx, kk: add immediate, no carry (R141). -/
  | addImm (x : RegIdx) (kk : Byte)
  /-- 8xy0 LD Vx, Vy: register copy (R142). -/
  | ldReg (x y : RegIdx)
  /-- 8xy1 OR Vx, Vy (R143). -/
  | orReg (x y : RegIdx)
  /-- 8xy2 AND Vx, Vy (R144). -/
  | andReg (x y : RegIdx)
  /-- 8xy3 XOR Vx, Vy (R145). -/
  | xorReg (x y : RegIdx)
  /-- 8xy4 ADD Vx, Vy: add with carry out (R146). -/
  | addReg (x y : RegIdx)
  /-- 8xy5 SUB Vx, Vy: Vx − Vy with no-borrow flag (R147). -/
  | sub (x y : RegIdx)
  /-- 8xy6 SHR Vx, Vy: shift right by one (R148). -/
  | shr (x y : RegIdx)
  /-- 8xy7 SUBN Vx, Vy: Vy − Vx with no-borrow flag (R149). -/
  | subn (x y : RegIdx)
  /-- 8xyE SHL Vx, Vy: shift left by one (R150). -/
  | shl (x y : RegIdx)
  /-- 9xy0 SNE Vx, Vy: skip if registers differ (R110). -/
  | sneReg (x y : RegIdx)
  /-- Annn LD I, nnn: load index register (R170). -/
  | ldI (nnn : Addr12)
  /-- Bnnn JP V0, nnn: jump to address plus V0 (R111). -/
  | jpV0 (nnn : Addr12)
  /-- Cxkk RND Vx, kk: random byte masked by an immediate (R151). -/
  | rnd (x : RegIdx) (kk : Byte)
  /-- Dxyn DRW Vx, Vy, n: draw an n-row sprite by XOR (R191). -/
  | drw (x y : RegIdx) (n : Nibble)
  /-- Ex9E SKP Vx: skip if the key named by Vx is pressed (R210). -/
  | skp (x : RegIdx)
  /-- ExA1 SKNP Vx: skip if the key named by Vx is not pressed (R211). -/
  | sknp (x : RegIdx)
  /-- Fx07 LD Vx, DT: read the delay timer (R212). -/
  | ldVxDt (x : RegIdx)
  /-- Fx0A LD Vx, K: wait for a key press (R213). -/
  | ldVxK (x : RegIdx)
  /-- Fx15 LD DT, Vx: set the delay timer (R214). -/
  | ldDtVx (x : RegIdx)
  /-- Fx18 LD ST, Vx: set the sound timer (R215). -/
  | ldStVx (x : RegIdx)
  /-- Fx1E ADD I, Vx: add register to index (R171). -/
  | addIVx (x : RegIdx)
  /-- Fx29 LD F, Vx: point I at the font glyph of a digit (R172). -/
  | ldFVx (x : RegIdx)
  /-- Fx33 LD B, Vx: store the decimal digits of Vx (R173). -/
  | ldBVx (x : RegIdx)
  /-- Fx55 LD [I], Vx: store registers V0 to Vx (R174). -/
  | ldMemVx (x : RegIdx)
  /-- Fx65 LD Vx, [I]: load registers V0 to Vx (R175). -/
  | ldVxMem (x : RegIdx)
  deriving DecidableEq, Repr

end Sys2Proof
end

