-- ==== Sys2Proof/WellFormed.lean ====
section
/-! DEFINITION. The well-formed instruction words: the opcode map of 30_encoding.md R74 as a list of masks and matches,
and the check that a word matches a row (R75: a word that matches none is illegal). A term of `Instr` needs no check of
its own, because each operand's type is exactly its field; the check is on words. The decoder of Decode.lean does not
use this table: that the two agree is a statement. -/

namespace Sys2Proof

/-- One row of R74: a word `w` belongs to it when `(w & mask) == pattern`. -/
structure OpcodeRow where
  mnemonic : String
  mask : Word
  pattern : Word
  deriving DecidableEq, Repr

/-- The row's test (R74). -/
def OpcodeRow.fits (r : OpcodeRow) (w : Word) : Bool := (w &&& r.mask) == r.pattern

/-- Rows 0 to 9 of R74, and B to D: fixed words, addresses, immediates, register skips. -/
def controlRows : List OpcodeRow :=
  [⟨"CLS", 0xFFFF, 0x00E0⟩, ⟨"RET", 0xFFFF, 0x00EE⟩, ⟨"JP", 0xF000, 0x1000⟩, ⟨"CALL", 0xF000, 0x2000⟩,
   ⟨"SE_imm", 0xF000, 0x3000⟩, ⟨"SNE_imm", 0xF000, 0x4000⟩, ⟨"SE_reg", 0xF00F, 0x5000⟩,
   ⟨"LD_imm", 0xF000, 0x6000⟩, ⟨"ADD_imm", 0xF000, 0x7000⟩]

/-- The rows of R74 whose top nibble is 8: register to register. -/
def aluRows : List OpcodeRow :=
  [⟨"LD_reg", 0xF00F, 0x8000⟩, ⟨"OR", 0xF00F, 0x8001⟩, ⟨"AND", 0xF00F, 0x8002⟩, ⟨"XOR", 0xF00F, 0x8003⟩,
   ⟨"ADD_reg", 0xF00F, 0x8004⟩, ⟨"SUB", 0xF00F, 0x8005⟩, ⟨"SHR", 0xF00F, 0x8006⟩, ⟨"SUBN", 0xF00F, 0x8007⟩,
   ⟨"SHL", 0xF00F, 0x800E⟩]

/-- The rows of R74 with top nibbles 9 to E. -/
def middleRows : List OpcodeRow :=
  [⟨"SNE_reg", 0xF00F, 0x9000⟩, ⟨"LD_I", 0xF000, 0xA000⟩, ⟨"JP_V0", 0xF000, 0xB000⟩, ⟨"RND", 0xF000, 0xC000⟩,
   ⟨"DRW", 0xF000, 0xD000⟩, ⟨"SKP", 0xF0FF, 0xE09E⟩, ⟨"SKNP", 0xF0FF, 0xE0A1⟩]

/-- The rows of R74 whose top nibble is F. -/
def miscRows : List OpcodeRow :=
  [⟨"LD_Vx_DT", 0xF0FF, 0xF007⟩, ⟨"LD_Vx_K", 0xF0FF, 0xF00A⟩, ⟨"LD_DT_Vx", 0xF0FF, 0xF015⟩,
   ⟨"LD_ST_Vx", 0xF0FF, 0xF018⟩, ⟨"ADD_I_Vx", 0xF0FF, 0xF01E⟩, ⟨"LD_F_Vx", 0xF0FF, 0xF029⟩,
   ⟨"LD_B_Vx", 0xF0FF, 0xF033⟩, ⟨"LD_mem_Vx", 0xF0FF, 0xF055⟩, ⟨"LD_Vx_mem", 0xF0FF, 0xF065⟩]

/-- The 34 rows of R74. -/
def opcodeRows : List OpcodeRow := controlRows ++ aluRows ++ middleRows ++ miscRows

/-- A word is well formed when it matches some row of R74; every other word is illegal (R75). -/
def wellFormedWord (w : Word) : Bool := opcodeRows.any (fun r => r.fits w)

/-- The row of R74 that an instruction belongs to, named as spec/opcode_table.json names it. -/
def Instr.row : Instr → OpcodeRow
  | .cls => ⟨"CLS", 0xFFFF, 0x00E0⟩
  | .ret => ⟨"RET", 0xFFFF, 0x00EE⟩
  | .jp _ => ⟨"JP", 0xF000, 0x1000⟩
  | .call _ => ⟨"CALL", 0xF000, 0x2000⟩
  | .seImm _ _ => ⟨"SE_imm", 0xF000, 0x3000⟩
  | .sneImm _ _ => ⟨"SNE_imm", 0xF000, 0x4000⟩
  | .seReg _ _ => ⟨"SE_reg", 0xF00F, 0x5000⟩
  | .ldImm _ _ => ⟨"LD_imm", 0xF000, 0x6000⟩
  | .addImm _ _ => ⟨"ADD_imm", 0xF000, 0x7000⟩
  | .ldReg _ _ => ⟨"LD_reg", 0xF00F, 0x8000⟩
  | .orReg _ _ => ⟨"OR", 0xF00F, 0x8001⟩
  | .andReg _ _ => ⟨"AND", 0xF00F, 0x8002⟩
  | .xorReg _ _ => ⟨"XOR", 0xF00F, 0x8003⟩
  | .addReg _ _ => ⟨"ADD_reg", 0xF00F, 0x8004⟩
  | .sub _ _ => ⟨"SUB", 0xF00F, 0x8005⟩
  | .shr _ _ => ⟨"SHR", 0xF00F, 0x8006⟩
  | .subn _ _ => ⟨"SUBN", 0xF00F, 0x8007⟩
  | .shl _ _ => ⟨"SHL", 0xF00F, 0x800E⟩
  | .sneReg _ _ => ⟨"SNE_reg", 0xF00F, 0x9000⟩
  | .ldI _ => ⟨"LD_I", 0xF000, 0xA000⟩
  | .jpV0 _ => ⟨"JP_V0", 0xF000, 0xB000⟩
  | .rnd _ _ => ⟨"RND", 0xF000, 0xC000⟩
  | .drw _ _ _ => ⟨"DRW", 0xF000, 0xD000⟩
  | .skp _ => ⟨"SKP", 0xF0FF, 0xE09E⟩
  | .sknp _ => ⟨"SKNP", 0xF0FF, 0xE0A1⟩
  | .ldVxDt _ => ⟨"LD_Vx_DT", 0xF0FF, 0xF007⟩
  | .ldVxK _ => ⟨"LD_Vx_K", 0xF0FF, 0xF00A⟩
  | .ldDtVx _ => ⟨"LD_DT_Vx", 0xF0FF, 0xF015⟩
  | .ldStVx _ => ⟨"LD_ST_Vx", 0xF0FF, 0xF018⟩
  | .addIVx _ => ⟨"ADD_I_Vx", 0xF0FF, 0xF01E⟩
  | .ldFVx _ => ⟨"LD_F_Vx", 0xF0FF, 0xF029⟩
  | .ldBVx _ => ⟨"LD_B_Vx", 0xF0FF, 0xF033⟩
  | .ldMemVx _ => ⟨"LD_mem_Vx", 0xF0FF, 0xF055⟩
  | .ldVxMem _ => ⟨"LD_Vx_mem", 0xF0FF, 0xF065⟩

end Sys2Proof
end

