-- ==== Sys2Proof/Decode.lean ====
section
/-! DEFINITION. The fields of a word (30_encoding.md R71), the decoder (R74, R75), and after it the encoder, written
from the formats of R72 and the matches of R74. Decoding reads only the word (R79). -/

namespace Sys2Proof

/-- The field `op`, w[15:12] (R71). -/
def fieldOp (w : Word) : Nibble := w.extractLsb' 12 4
/-- The field `x`, w[11:8] (R71). -/
def fieldX (w : Word) : RegIdx := w.extractLsb' 8 4
/-- The field `y`, w[7:4] (R71). -/
def fieldY (w : Word) : RegIdx := w.extractLsb' 4 4
/-- The field `n`, w[3:0] (R71). -/
def fieldN (w : Word) : Nibble := w.extractLsb' 0 4
/-- The field `kk`, w[7:0] (R71). -/
def fieldKk (w : Word) : Byte := w.extractLsb' 0 8
/-- The field `nnn`, w[11:0] (R71). -/
def fieldNnn (w : Word) : Addr12 := w.extractLsb' 0 12

/-- Top nibble 8: the low nibble chooses the operation; 8 to D and F are illegal (R74, R75). -/
def decodeAlu (x y : RegIdx) (n : Nibble) : Option Instr :=
  match n.toNat with
  | 0x0 => some (.ldReg x y)
  | 0x1 => some (.orReg x y)
  | 0x2 => some (.andReg x y)
  | 0x3 => some (.xorReg x y)
  | 0x4 => some (.addReg x y)
  | 0x5 => some (.sub x y)
  | 0x6 => some (.shr x y)
  | 0x7 => some (.subn x y)
  | 0xE => some (.shl x y)
  | _ => none

/-- Top nibble E: the low byte is 9E or A1, else the word is illegal (R74, R75). -/
def decodeKey (x : RegIdx) (kk : Byte) : Option Instr :=
  match kk.toNat with
  | 0x9E => some (.skp x)
  | 0xA1 => some (.sknp x)
  | _ => none

/-- Top nibble F: the low byte chooses the operation; every other byte is illegal (R74, R75). -/
def decodeMisc (x : RegIdx) (kk : Byte) : Option Instr :=
  match kk.toNat with
  | 0x07 => some (.ldVxDt x)
  | 0x0A => some (.ldVxK x)
  | 0x15 => some (.ldDtVx x)
  | 0x18 => some (.ldStVx x)
  | 0x1E => some (.addIVx x)
  | 0x29 => some (.ldFVx x)
  | 0x33 => some (.ldBVx x)
  | 0x55 => some (.ldMemVx x)
  | 0x65 => some (.ldVxMem x)
  | _ => none

/-- The instruction a word stands for, or none where the word is illegal: "top nibble selects family" (R71, R74, R75).
5xyN and 9xyN with N ≠ 0 are illegal (decision D21). -/
def decode (w : Word) : Option Instr :=
  match (fieldOp w).toNat with
  | 0x0 => if w = 0x00E0#16 then some .cls else if w = 0x00EE#16 then some .ret else none
  | 0x1 => some (.jp (fieldNnn w))
  | 0x2 => some (.call (fieldNnn w))
  | 0x3 => some (.seImm (fieldX w) (fieldKk w))
  | 0x4 => some (.sneImm (fieldX w) (fieldKk w))
  | 0x5 => if fieldN w = 0#4 then some (.seReg (fieldX w) (fieldY w)) else none
  | 0x6 => some (.ldImm (fieldX w) (fieldKk w))
  | 0x7 => some (.addImm (fieldX w) (fieldKk w))
  | 0x8 => decodeAlu (fieldX w) (fieldY w) (fieldN w)
  | 0x9 => if fieldN w = 0#4 then some (.sneReg (fieldX w) (fieldY w)) else none
  | 0xA => some (.ldI (fieldNnn w))
  | 0xB => some (.jpV0 (fieldNnn w))
  | 0xC => some (.rnd (fieldX w) (fieldKk w))
  | 0xD => some (.drw (fieldX w) (fieldY w) (fieldN w))
  | 0xE => decodeKey (fieldX w) (fieldKk w)
  | 0xF => decodeMisc (fieldX w) (fieldKk w)
  | _ => none

/-- Why a byte sequence is no instruction. -/
inductive DecodeError where
  /-- Fewer than the two bytes every instruction has (R70). -/
  | truncated
  /-- The word matches no row of R74 (R75); the machine raises `UnknownOpcode` for it. -/
  | unknownOpcode (w : Word)
  deriving DecidableEq, Repr

/-- The word of two bytes in memory order: "big-endian: high byte first" (R53, R70). -/
def wordOfBytes (hi lo : Byte) : Word := hi ++ lo

/-- Decodes the instruction at the head of a byte sequence and gives the rest (R70: every instruction is 2 bytes). -/
def decodeBytes : List Byte → Except DecodeError (Instr × List Byte)
  | hi :: lo :: rest =>
    match decode (wordOfBytes hi lo) with
    | some i => .ok (i, rest)
    | none => .error (.unknownOpcode (wordOfBytes hi lo))
  | _ => .error .truncated

/-- Format `A`: `oooo nnnn nnnn nnnn` (R72). -/
def formatA (op : Nibble) (nnn : Addr12) : Word := op ++ nnn
/-- Formats `XK` and `X`: `oooo xxxx kkkk kkkk` (R72). -/
def formatXK (op : Nibble) (x : RegIdx) (kk : Byte) : Word := op ++ x ++ kk
/-- Formats `XY` and `XYN`: `oooo xxxx yyyy ffff` (R72). -/
def formatXY (op : Nibble) (x y : RegIdx) (f : Nibble) : Word := op ++ x ++ y ++ f

/-- The word of an instruction (R72, R74). -/
def encode : Instr → Word
  | .cls => 0x00E0#16
  | .ret => 0x00EE#16
  | .jp nnn => formatA 0x1#4 nnn
  | .call nnn => formatA 0x2#4 nnn
  | .seImm x kk => formatXK 0x3#4 x kk
  | .sneImm x kk => formatXK 0x4#4 x kk
  | .seReg x y => formatXY 0x5#4 x y 0x0#4
  | .ldImm x kk => formatXK 0x6#4 x kk
  | .addImm x kk => formatXK 0x7#4 x kk
  | .ldReg x y => formatXY 0x8#4 x y 0x0#4
  | .orReg x y => formatXY 0x8#4 x y 0x1#4
  | .andReg x y => formatXY 0x8#4 x y 0x2#4
  | .xorReg x y => formatXY 0x8#4 x y 0x3#4
  | .addReg x y => formatXY 0x8#4 x y 0x4#4
  | .sub x y => formatXY 0x8#4 x y 0x5#4
  | .shr x y => formatXY 0x8#4 x y 0x6#4
  | .subn x y => formatXY 0x8#4 x y 0x7#4
  | .shl x y => formatXY 0x8#4 x y 0xE#4
  | .sneReg x y => formatXY 0x9#4 x y 0x0#4
  | .ldI nnn => formatA 0xA#4 nnn
  | .jpV0 nnn => formatA 0xB#4 nnn
  | .rnd x kk => formatXK 0xC#4 x kk
  | .drw x y n => formatXY 0xD#4 x y n
  | .skp x => formatXK 0xE#4 x 0x9E#8
  | .sknp x => formatXK 0xE#4 x 0xA1#8
  | .ldVxDt x => formatXK 0xF#4 x 0x07#8
  | .ldVxK x => formatXK 0xF#4 x 0x0A#8
  | .ldDtVx x => formatXK 0xF#4 x 0x15#8
  | .ldStVx x => formatXK 0xF#4 x 0x18#8
  | .addIVx x => formatXK 0xF#4 x 0x1E#8
  | .ldFVx x => formatXK 0xF#4 x 0x29#8
  | .ldBVx x => formatXK 0xF#4 x 0x33#8
  | .ldMemVx x => formatXK 0xF#4 x 0x55#8
  | .ldVxMem x => formatXK 0xF#4 x 0x65#8

/-- The two bytes of a word in memory order (R53). -/
def bytesOfWord (w : Word) : List Byte := [w.extractLsb' 8 8, w.extractLsb' 0 8]

/-- The bytes of an instruction in memory order. -/
def encodeBytes (i : Instr) : List Byte := bytesOfWord (encode i)

/-- The word whose low `nbits` bits are those of `w`, every other bit 0. -/
def tableWord (nbits w : Nat) : Word := BitVec.ofNat 16 (w % 2 ^ nbits)

/-- What the decoder reads from an instruction whose bits are `w`, numbered as spec/opcode_table.json numbers them
(its one word, bit 0 least significant), laid out as memory holds it. -/
def decodeTableWord (nbits w : Nat) : Option Instr :=
  match decodeBytes (bytesOfWord (tableWord nbits w)) with
  | .ok (i, _) => some i
  | .error _ => none

end Sys2Proof
end

