-- ==== Sys2Proof/Config.lean ====
section
/-! DEFINITION. What the hardware leaves to its construction (00_scope.md R6, 10_state.md R37), with the spec's
defaults, and the model's one free value. -/

namespace Sys2Proof

/-- Which register 8xy6 and 8xyE read (R6, decision D4). -/
inductive ShiftQuirk where
  /-- Vy is shifted. -/
  | legacy
  /-- Vx is shifted (the default). -/
  | modern
  deriving DecidableEq, Repr

/-- The construction parameters of R6, except RNG. They are arguments of the model, not state of the machine (R37):
no step changes them (assumption 2). -/
structure Params where
  /-- `SHIFT_QUIRK` (R6, D4). -/
  shiftQuirk : ShiftQuirk
  /-- `INSTR_GAP_MS` (R6, D3); a plain number, since the spec gives it no width. -/
  instrGapMs : Nat
  /-- `TIMER_GAP_MS` (R6, D3). -/
  timerGapMs : Nat
  /-- `FONT`, the 80 bytes of memory [0, 80) at reset (R6, R36, D5). -/
  font : Vector Byte 80
  deriving DecidableEq, Repr

namespace Config

/-- Glyphs 0 to 3 of the default font (R36). -/
def glyphs0To3 : List Byte :=
  [0xF0, 0x90, 0x90, 0x90, 0xF0, 0x20, 0x60, 0x20, 0x20, 0x70,
   0xF0, 0x10, 0xF0, 0x80, 0xF0, 0xF0, 0x10, 0xF0, 0x10, 0xF0]

/-- Glyphs 4 to 7 of the default font (R36). -/
def glyphs4To7 : List Byte :=
  [0x90, 0x90, 0xF0, 0x10, 0x10, 0xF0, 0x80, 0xF0, 0x10, 0xF0,
   0xF0, 0x80, 0xF0, 0x90, 0xF0, 0xF0, 0x10, 0x20, 0x40, 0x40]

/-- Glyphs 8 to B of the default font (R36). -/
def glyphs8ToB : List Byte :=
  [0xF0, 0x90, 0xF0, 0x90, 0xF0, 0xF0, 0x90, 0xF0, 0x10, 0xF0,
   0xF0, 0x90, 0xF0, 0x90, 0x90, 0xE0, 0x90, 0xE0, 0x90, 0xE0]

/-- Glyphs C to F of the default font (R36). -/
def glyphsCToF : List Byte :=
  [0xF0, 0x80, 0x80, 0x80, 0xF0, 0xE0, 0x90, 0x90, 0x90, 0xE0,
   0xF0, 0x80, 0xF0, 0x80, 0xF0, 0xF0, 0x80, 0xF0, 0x80, 0x80]

/-- The default of `FONT` (R36): the conventional CHIP-8 font, which the spec supplies from general knowledge
(93_implementation_defined.md G1; assumption 3). -/
def defaultFont : Vector Byte 80 :=
  ⟨⟨glyphs0To3 ++ glyphs4To7 ++ glyphs8ToB ++ glyphsCToF⟩, rfl⟩

/-- The defaults of R6. -/
def standard : Params :=
  { shiftQuirk := .modern, instrGapMs := 3, timerGapMs := 16, font := defaultFont }

/-- `RNG`: the byte of the n-th draw. A FREE VALUE (R6, R252, D6: "each byte as a free draw, any value"): it has no
body, so nothing can be proved of a drawn byte but what holds of every byte (assumption 1). -/
opaque randomByte : Nat → Byte

end Config

end Sys2Proof
end

