-- ==== Sys2Proof/Machine/State.lean ====
section
/-! DEFINITION. The machine's state: every piece of state of 10_state.md, the construction parameters it was built with,
and the model's own fields; the outcomes of a step that are no next state; and the state after reset. -/

namespace Sys2Proof.Machine

/-- The causes of a fatal execution-time error (60_exceptions.md R230). A fatal error is not a stop of the model: the
step answers a next state whose fault latch is written (R231). -/
inductive Cause where
  /-- The word matches no row (code 1). -/
  | unknownOpcode
  /-- 2nnn with SP = 16 (code 2). -/
  | stackOverflow
  /-- 00EE with SP = 0 (code 3). -/
  | stackUnderflow
  /-- PC + 1 > 0xFFF (code 4). -/
  | fetchOutOfRange
  /-- A data address above 0xFFF (code 5). -/
  | memoryOutOfRange
  /-- A set sprite bit's pixel index above 2047 (code 6). -/
  | displayOutOfRange
  /-- Ex9E or ExA1 with Vx > 15 (code 7). -/
  | keyIndexOutOfRange
  deriving DecidableEq, Repr

/-- The host's transactions (60_exceptions.md R240). -/
inductive HostCall where
  /-- `reset()` (R280). -/
  | reset
  /-- `loadProgram(bytes)` (R282). -/
  | loadProgram (bytes : List Byte)
  /-- `tick(now)`, milliseconds (R241 to R244). -/
  | tick (now : BitVec 64)
  /-- `keyDown(k)` (R245); the contract is k ≤ 15. -/
  | keyDown (k : Nat)
  /-- `keyUp(k)` (R246); the contract is k ≤ 15. -/
  | keyUp (k : Nat)
  /-- `clearDirty()` (R247). -/
  | clearDirty
  /-- A read of the display, Dirty or the fault latch (R248). -/
  | read
  deriving DecidableEq, Repr

/-- The state of the Machine (10_state.md R20 to R35). -/
structure State where
  /-- V0 to VF, 8 bits each (R20, R21). -/
  v : Vector Byte 16
  /-- The index register I, 16 bits (R22). -/
  i : Word
  /-- The program counter PC, 16 bits (R23). -/
  pc : Word
  /-- The stack pointer SP, 8 bits; 0 to 16 on every legal state (R24, R38). -/
  sp : Byte
  /-- The call stack, 16 entries of 16 bits (R25). -/
  stack : Vector Word 16
  /-- The delay timer DT (R26). -/
  dt : Byte
  /-- The sound timer ST (R27). -/
  st : Byte
  /-- The key-wait marker Wait: none is −1 (Running), some x is AwaitingKey(x) (R28). -/
  wait : Option RegIdx
  /-- The key states Key[0] to Key[15] (R29). -/
  key : Vector Bool 16
  /-- The display, 2048 × 1 bit (R30, R51): bit p is Disp[p] (assumption 5). -/
  disp : BitVec 2048
  /-- The dirty flag (R31). -/
  dirty : Bool
  /-- False until the first tick after reset (R32). -/
  started : Bool
  /-- `last_instr_time`, 64-bit milliseconds (R32). -/
  lastInstrTime : BitVec 64
  /-- `last_timer_time`, 64-bit milliseconds (R32). -/
  lastTimerTime : BitVec 64
  /-- `halted` of the fault latch (R33). -/
  halted : Bool
  /-- `fault_code` of the fault latch, 4 bits (R33, R230). -/
  faultCode : BitVec 4
  /-- `fault_word` of the fault latch (R33). -/
  faultWord : Word
  /-- `fault_pc` of the fault latch (R33). -/
  faultPc : Word
  /-- Memory, 4096 bytes (R34): the bytes that differ from what reset leaves, by strictly rising address
  (assumption 6). -/
  mem : List Host.Cell
  /-- The construction parameters the Machine was built with (R6, R37). NOT state of the machine: nothing changes
  them; they stand here because a model takes each one as an argument (assumption 2). -/
  params : Params
  /-- THE MODEL'S OWN field: how many random bytes have been drawn; the next draw is
  `Config.randomByte rngDraws` (assumption 1). -/
  rngDraws : Nat
  /-- THE MODEL'S OWN field: the transactions the host calls from here on, in order (assumption 4). -/
  hostCalls : List HostCall
  deriving DecidableEq, Repr

/-- The reasons the model stops with a fault: there are none. Every fatal error the spec gives the machine is a next
state with the fault latch written (R231), so no step answers a fault (assumption 8). -/
inductive Fault where
  deriving DecidableEq, Repr

/-- The reasons the model gives no transition. -/
inductive Refusal where
  /-- Raised by exec's arm of an instruction that has no meaning in this model (no arm raises it now). Safe. -/
  | notModelled (mnemonic : String)
  /-- Raised by `tick(now)` with `started = 1` and `now` below a gate timestamp: the host breaks its contract
  (R240, D2, U13). Safe. -/
  | hostTimeBackward
  /-- Raised by `keyDown(k)` and `keyUp(k)` with k ≥ 16: the host breaks its contract (R240, D25, U14). Safe. -/
  | hostKeyIndex
  /-- Raised by 2nnn and 00EE in a state with SP > 16, which breaks the invariants of R38 and is "outside the model"
  (U19, R284, D38): the stack entry does not exist. Safe. -/
  | stateOutsideModel
  deriving DecidableEq, Repr

/-- What a step answers. -/
abbrev Result := Host.Outcome State Fault Refusal

/-- The state after reset, which is also that of a newly built Machine (R39, R280, R281), with the parameters at their
defaults (R6). No memory is listed: an unlisted address reads as reset leaves it, the font at [0, 80) and 0 above. -/
def State.reset : State :=
  { v := Vector.replicate 16 0, i := 0, pc := 0x200, sp := 0, stack := Vector.replicate 16 0, dt := 0, st := 0,
    wait := none, key := Vector.replicate 16 false, disp := 0, dirty := false, started := false, lastInstrTime := 0,
    lastTimerTime := 0, halted := false, faultCode := 0, faultWord := 0, faultPc := 0, mem := [],
    params := Config.standard, rngDraws := 0, hostCalls := [] }

end Sys2Proof.Machine
end

