-- ==== Sys2Proof/Machine/Ops.lean ====
section
/-! DEFINITION. The named operations over registers, memory, the display, the keypad and the program counter, and the
entry of a fatal error (60_exceptions.md R231). There is no return from one (R234): only the host's `reset` and
`loadProgram` leave the halted state. -/

namespace Sys2Proof.Machine

/-! ### General registers -/

/-- `V[x]` (R20). -/
def State.getV (s : State) (x : RegIdx) : Byte := s.v[x.toNat]'x.isLt

/-- `V[x] <- b` (R20). -/
def State.setV (s : State) (x : RegIdx) (b : Byte) : State := { s with v := s.v.set x.toNat b x.isLt }

/-! ### Memory -/


/-- What an address that memory does not list reads as: the byte reset leaves there, `FONT` at [0, 80) and 0 above
(R39, R52). -/
def resetByte (font : Vector Byte 80) (a : Nat) : Byte := if h : a < 80 then font[a] else 0

/-- The byte at an address. -/
def Memory.read (font : Vector Byte 80) : List Host.Cell → Nat → Byte
  | [], a => resetByte font a
  | (k, b) :: m, a => if a = k then b else Memory.read font m a

/-- Writes a byte and keeps the canonical form: a byte equal to what an unlisted address reads as is not listed. -/
def Memory.write (font : Vector Byte 80) : List Host.Cell → Nat → Byte → List Host.Cell
  | [], a, b => if b = resetByte font a then [] else [(a, b)]
  | (k, c) :: m, a, b =>
    if a < k then (if b = resetByte font a then (k, c) :: m else (a, b) :: (k, c) :: m)
    else if a = k then (if b = resetByte font a then m else (a, b) :: m)
    else (k, c) :: Memory.write font m a b

/-- The canonical form: addresses in 0x000 to 0xFFF, strictly rising, and no byte equal to what an unlisted address
reads as. -/
def Memory.wf (font : Vector Byte 80) : List Host.Cell → Bool
  | [] => true
  | (k, b) :: m =>
    decide (k ≤ 0xFFF) && (b != resetByte font k) && m.all (fun c => decide (k < c.1)) && Memory.wf font m

/-- The byte of the machine's memory at an address, with no range check. -/
def State.readByte (s : State) (a : Nat) : Byte := Memory.read s.params.font s.mem a

/-- The machine with one byte of memory written, with no range check. -/
def State.writeByte (s : State) (a : Nat) (b : Byte) : State := { s with mem := Memory.write s.params.font s.mem a b }

/-- `MemRead(a, 1)`: raises `MemoryOutOfRange` above 0xFFF (R55, R56). -/
def State.memRead (s : State) (a : Nat) : Except Cause Byte :=
  if a > 0xFFF then .error .memoryOutOfRange else .ok (s.readByte a)

/-- `MemWrite(a, 1, b)`: raises `MemoryOutOfRange` above 0xFFF (R55, R56). -/
def State.memWrite (s : State) (a : Nat) (b : Byte) : Except Cause State :=
  if a > 0xFFF then .error .memoryOutOfRange else .ok (s.writeByte a b)

/-- Writes a run of bytes by rising address; the first address out of range raises (R232). -/
def State.memWriteAll (s : State) (a : Nat) : List Byte → Except Cause State
  | [] => .ok s
  | b :: bs =>
    match s.memWrite a b with
    | .error c => .error c
    | .ok t => t.memWriteAll (a + 1) bs

/-- `V[r] <- MemRead(base + r, 1)` for each register of a list in turn (R175). -/
def State.loadRegs (base : Nat) : List RegIdx → State → Except Cause State
  | [], s => .ok s
  | r :: rs, s =>
    match s.memRead (base + r.toNat) with
    | .error c => .error c
    | .ok b => State.loadRegs base rs (s.setV r b)

/-- `MemWrite(base + r, 1, V[r])` for each register of a list in turn (R174). -/
def State.storeRegs (base : Nat) : List RegIdx → State → Except Cause State
  | [], s => .ok s
  | r :: rs, s =>
    match s.memWrite (base + r.toNat) (s.getV r) with
    | .error c => .error c
    | .ok t => State.storeRegs base rs t

/-! ### Display -/


/-- `Disp[p]` (R30). -/
def Display.pixel (d : BitVec 2048) (p : Nat) : Bool := d.getLsbD p

/-- `Disp[p] <- Disp[p] ^ 1` (R191). -/
def Display.toggle (d : BitVec 2048) (p : Nat) : BitVec 2048 := d ^^^ (1#2048 <<< p)

/-- A display while a sprite is drawn: the pixels, and whether a set bit has met a lit pixel. -/
abbrev Canvas := BitVec 2048 × Bool

/-- One sprite row of R191, step 3: `b` is the row's byte and `base` the index of its column 0; the list holds the
columns still to draw, column 0 being the most significant bit. -/
def drawRow (b : Byte) (base : Nat) : List Nat → Canvas → Except Cause Canvas
  | [], d => .ok d
  | c :: cs, d =>
    if b.getLsbD (7 - c) then
      if base + c ≥ 2048 then .error .displayOutOfRange
      else drawRow b base cs (Display.toggle d.1 (base + c), d.2 || Display.pixel d.1 (base + c))
    else drawRow b base cs d

/-- The columns of a sprite row, column 0 the most significant bit (R191). -/
def columns : List Nat := [0, 1, 2, 3, 4, 5, 6, 7]

/-- The rows of R191, step 3: the list holds the row numbers still to draw. -/
def drawRows (s : State) (px py : Nat) : List Nat → Canvas → Except Cause Canvas
  | [], d => .ok d
  | r :: rs, d =>
    match s.memRead (s.i.toNat + r) with
    | .error c => .error c
    | .ok b =>
      match drawRow b ((py + r) * 64 + px) columns d with
      | .error c => .error c
      | .ok d' => drawRows s px py rs d'

/-! ### Keypad and random source -/

/-- `Key[k]` for a key named by a byte: raises `KeyIndexOutOfRange` above 15 (R210, R211). -/
def State.keyNamed (s : State) (k : Byte) : Except Cause Bool :=
  if h : k.toNat < 16 then .ok s.key[k.toNat] else .error .keyIndexOutOfRange

/-- `draw_rand()`: the next byte of the random source (R252). -/
def State.drawRand (s : State) : Byte × State := (Config.randomByte s.rngDraws, { s with rngDraws := s.rngDraws + 1 })

/-! ### Sequencing -/

/-- **next**: `PC <- trunc_16(PC + 2)` (R102). -/
def State.next (s : State) : State := { s with pc := s.pc + 2 }

/-- **skip**: `PC <- trunc_16(PC + 4)` when the condition holds, otherwise **next** (R102). -/
def State.skipIf (s : State) (c : Bool) : State := if c then { s with pc := s.pc + 4 } else s.next

/-- **set**: `PC <- target` (R102). -/
def State.jumpTo (s : State) (target : Word) : State := { s with pc := target }

/-! ### Fatal errors -/

/-- The number of a cause (R230). -/
def Cause.code : Cause → BitVec 4
  | .unknownOpcode => 1
  | .stackOverflow => 2
  | .stackUnderflow => 3
  | .fetchOutOfRange => 4
  | .memoryOutOfRange => 5
  | .displayOutOfRange => 6
  | .keyIndexOutOfRange => 7

/-- Fault entry (R231): the fault latch is written, and nothing else of the state the step began with changes. `w` is
the instruction word; a fetch that failed records 0x0000 (D37). -/
def State.raise (s : State) (c : Cause) (w : Word) : State :=
  { s with halted := true, faultCode := c.code, faultWord := if c = .fetchOutOfRange then 0 else w, faultPc := s.pc }

/-- Ends an instruction: what it computed from `s` is the next state, or a raised cause discards every write it made
(R7, R231). The word recorded is the instruction's encoding (assumption 13). -/
def finish (s : State) (w : Word) : Except Cause State → Result
  | .ok t => .next t
  | .error c => .next (s.raise c w)

end Sys2Proof.Machine
end

