-- ==== Sys2Proof/Machine/Operands.lean ====
section
/-! DEFINITION. The operand forms: immediates (30_encoding.md R73), the register range V0 to Vx, the source of a shift,
the address through I and the sprite's place. -/

namespace Sys2Proof.Machine

/-- `zext_16(nnn)` (R73). -/
def addrOperand (nnn : Addr12) : Word := nnn.setWidth 16

/-- `zext_16(b)` for a byte. -/
def byteOperand (b : Byte) : Word := b.setWidth 16

/-- The implicit register range V0 to Vx of Fx55 and Fx65, ascending (R20, R174, R175). -/
def regsUpTo (x : RegIdx) : List RegIdx :=
  [0x0#4, 0x1#4, 0x2#4, 0x3#4, 0x4#4, 0x5#4, 0x6#4, 0x7#4,
   0x8#4, 0x9#4, 0xA#4, 0xB#4, 0xC#4, 0xD#4, 0xE#4, 0xF#4].take (x.toNat + 1)

/-- The register 8xy6 and 8xyE shift: Vy in legacy mode, Vx in modern mode (R148, R150). -/
def State.shiftSource (s : State) (x y : RegIdx) : Byte :=
  match s.params.shiftQuirk with
  | .legacy => s.getV y
  | .modern => s.getV x

/-- The address `I + offset`, computed without truncation (R56). -/
def State.addrOfI (s : State) (offset : Nat) : Nat := s.i.toNat + offset

/-- The decimal digits of a byte: hundreds, tens, ones (R173, D18). -/
def bcdDigits (v : Byte) : List Byte :=
  [BitVec.ofNat 8 (v.toNat / 100), BitVec.ofNat 8 (v.toNat / 10 % 10), BitVec.ofNat 8 (v.toNat % 10)]

/-- The rows of a sprite of height `n`, 0 to n − 1 (R191). -/
def spriteRows (n : Nibble) : List Nat := List.range n.toNat

end Sys2Proof.Machine
end

