-- ==== Sys2Proof/Machine/Flags.lean ====
section
/-! DEFINITION. The arithmetic of 41_register_alu.md and its flags (R139, R146 to R150, R152): everything is unsigned,
results wrap modulo 256, and the flag is written to VF before the result is written to Vx. -/

namespace Sys2Proof.Machine

/-- A flag as VF holds it: 0x01 or 0x00. -/
def flagByte (f : Bool) : Byte := if f then 0x01 else 0x00

/-- `trunc_8(a + b)` (R141, R146). -/
def sum8 (a b : Byte) : Byte := BitVec.ofNat 8 (a.toNat + b.toNat)

/-- Carry out: the unbounded sum exceeds 0xFF (R146). -/
def carryOut (a b : Byte) : Bool := decide (a.toNat + b.toNat > 0xFF)

/-- `trunc_8(a + 256 − b)` (R147, R149). -/
def diff8 (a b : Byte) : Byte := BitVec.ofNat 8 (a.toNat + 256 - b.toNat)

/-- No borrow: the minuend is strictly greater than the subtrahend (R147, R149). -/
def noBorrow (a b : Byte) : Bool := decide (a.toNat > b.toNat)

/-- `s >> 1` (R148). -/
def shiftRight1 (s : Byte) : Byte := s >>> 1

/-- The bit a right shift drops: bit 0 (R148). -/
def lowBit (s : Byte) : Bool := s.getLsbD 0

/-- `trunc_8(s << 1)` (R150). -/
def shiftLeft1 (s : Byte) : Byte := s <<< 1

/-- The bit a left shift drops: bit 7 (R150). -/
def highBit (s : Byte) : Bool := s.getLsbD 7

/-- The two writes of a two-result instruction: VF first, Vx second, so that with x = F the result stays (R139). -/
def State.setFlagThen (s : State) (f : Bool) (x : RegIdx) (r : Byte) : State := (s.setV vF (flagByte f)).setV x r

end Sys2Proof.Machine
end

