-- ==== Sys2Proof/Machine/Display.lean ====
section
/-! DEFINITION. The display instructions (43_display.md R190, R191). -/

namespace Sys2Proof.Machine

/-- 00E0 CLS (R190). -/
def execCls (s : State) : Result := .next { s with disp := 0, dirty := true }.next

/-- The state after a sprite is drawn: VF is the collision flag, Dirty is set (R191, steps 2 to 4). -/
def State.showCanvas (s : State) (d : Canvas) : State :=
  { s.setV vF (flagByte d.2) with disp := d.1, dirty := true }.next

/-- Dxyn DRW Vx, Vy, n (R191): the coordinates are read before VF is cleared. -/
def execDrw (x y : RegIdx) (n : Nibble) (s : State) : Result :=
  finish s (encode (.drw x y n))
    ((drawRows s (s.getV x).toNat (s.getV y).toNat (spriteRows n) (s.disp, false)).map s.showCanvas)

end Sys2Proof.Machine
end

