-- ==== Sys2Proof/Machine/Flow.lean ====
section
/-! DEFINITION. The control-flow instructions (40_cycle_and_flow.md R104 to R111). -/

namespace Sys2Proof.Machine

/-- 00EE RET (R104). In a state with SP > 16 the entry does not exist: refused (U19; assumption 7). -/
def execRet (s : State) : Result :=
  if s.sp = 0 then .next (s.raise .stackUnderflow (encode .ret))
  else if h : s.sp.toNat - 1 < 16 then
    .next ({ s with sp := s.sp - 1 }.jumpTo (s.stack[s.sp.toNat - 1] + 2))
  else .refused .stateOutsideModel

/-- 1nnn JP nnn (R105). -/
def execJp (nnn : Addr12) (s : State) : Result := .next (s.jumpTo (addrOperand nnn))

/-- 2nnn CALL nnn (R106). In a state with SP > 16 the entry does not exist: refused (U19; assumption 7). -/
def execCall (nnn : Addr12) (s : State) : Result :=
  if s.sp = 16 then .next (s.raise .stackOverflow (encode (.call nnn)))
  else if h : s.sp.toNat < 16 then
    .next ({ s with stack := s.stack.set s.sp.toNat s.pc, sp := s.sp + 1 }.jumpTo (addrOperand nnn))
  else .refused .stateOutsideModel

/-- 3xkk SE Vx, kk (R107). -/
def execSeImm (x : RegIdx) (kk : Byte) (s : State) : Result := .next (s.skipIf (s.getV x == kk))

/-- 4xkk SNE Vx, kk (R108). -/
def execSneImm (x : RegIdx) (kk : Byte) (s : State) : Result := .next (s.skipIf (s.getV x != kk))

/-- 5xy0 SE Vx, Vy (R109). -/
def execSeReg (x y : RegIdx) (s : State) : Result := .next (s.skipIf (s.getV x == s.getV y))

/-- 9xy0 SNE Vx, Vy (R110). -/
def execSneReg (x y : RegIdx) (s : State) : Result := .next (s.skipIf (s.getV x != s.getV y))

/-- Bnnn JP V0, nnn (R111): the sum is at most 0x10FE and is not reduced to 12 bits. -/
def execJpV0 (nnn : Addr12) (s : State) : Result :=
  .next (s.jumpTo (addrOperand nnn + byteOperand (s.getV 0)))

end Sys2Proof.Machine
end

