-- ==== Sys2Proof/Machine/IndexMemory.lean ====
section
/-! DEFINITION. The index register and the memory transfers (42_index_memory.md R170 to R175). -/

namespace Sys2Proof.Machine

/-- Annn LD I, nnn (R170). -/
def execLdI (nnn : Addr12) (s : State) : Result := .next { s with i := addrOperand nnn }.next

/-- Fx1E ADD I, Vx (R171): modulo 2^16, no flag. -/
def execAddIVx (x : RegIdx) (s : State) : Result := .next { s with i := s.i + byteOperand (s.getV x) }.next

/-- Fx29 LD F, Vx (R172): Vx is not reduced to its low nibble. -/
def execLdFVx (x : RegIdx) (s : State) : Result := .next { s with i := byteOperand (s.getV x) * 5 }.next

/-- Fx33 LD B, Vx (R173). -/
def execLdBVx (x : RegIdx) (s : State) : Result :=
  finish s (encode (.ldBVx x)) ((s.memWriteAll (s.addrOfI 0) (bcdDigits (s.getV x))).map State.next)

/-- Fx55 LD [I], Vx (R174). -/
def execLdMemVx (x : RegIdx) (s : State) : Result :=
  finish s (encode (.ldMemVx x)) ((State.storeRegs (s.addrOfI 0) (regsUpTo x) s).map State.next)

/-- Fx65 LD Vx, [I] (R175). -/
def execLdVxMem (x : RegIdx) (s : State) : Result :=
  finish s (encode (.ldVxMem x)) ((State.loadRegs (s.addrOfI 0) (regsUpTo x) s).map State.next)

end Sys2Proof.Machine
end

