-- ==== Sys2Proof/Machine/KeysTimers.lean ====
section
/-! DEFINITION. The keypad and timer instructions (44_keys_timers.md R210 to R215). -/

namespace Sys2Proof.Machine

/-- Ex9E SKP Vx (R210). -/
def execSkp (x : RegIdx) (s : State) : Result :=
  finish s (encode (.skp x)) ((s.keyNamed (s.getV x)).map (fun down => s.skipIf down))

/-- ExA1 SKNP Vx (R211). -/
def execSknp (x : RegIdx) (s : State) : Result :=
  finish s (encode (.sknp x)) ((s.keyNamed (s.getV x)).map (fun down => s.skipIf (!down)))

/-- Fx07 LD Vx, DT (R212). -/
def execLdVxDt (x : RegIdx) (s : State) : Result := .next (s.setV x s.dt).next

/-- Fx0A LD Vx, K (R213): the wait begins, PC is held; `keyDown` ends it (R245). -/
def execLdVxK (x : RegIdx) (s : State) : Result := .next { s with wait := some x }

/-- Fx15 LD DT, Vx (R214). -/
def execLdDtVx (x : RegIdx) (s : State) : Result := .next { s with dt := s.getV x }.next

/-- Fx18 LD ST, Vx (R215). -/
def execLdStVx (x : RegIdx) (s : State) : Result := .next { s with st := s.getV x }.next

end Sys2Proof.Machine
end

