-- ==== Sys2Proof/Machine/RegAlu.lean ====
section
/-! DEFINITION. The register loads, the ALU instructions and the random byte (41_register_alu.md R140 to R151). None of
them raises an exception. -/

namespace Sys2Proof.Machine

/-- 6xkk LD Vx, kk (R140). -/
def execLdImm (x : RegIdx) (kk : Byte) (s : State) : Result := .next (s.setV x kk).next

/-- 7xkk ADD Vx, kk (R141): no flag. -/
def execAddImm (x : RegIdx) (kk : Byte) (s : State) : Result := .next (s.setV x (sum8 (s.getV x) kk)).next

/-- 8xy0 LD Vx, Vy (R142). -/
def execLdReg (x y : RegIdx) (s : State) : Result := .next (s.setV x (s.getV y)).next

/-- 8xy1 OR Vx, Vy (R143). -/
def execOr (x y : RegIdx) (s : State) : Result := .next (s.setV x (s.getV x ||| s.getV y)).next

/-- 8xy2 AND Vx, Vy (R144). -/
def execAnd (x y : RegIdx) (s : State) : Result := .next (s.setV x (s.getV x &&& s.getV y)).next

/-- 8xy3 XOR Vx, Vy (R145). -/
def execXor (x y : RegIdx) (s : State) : Result := .next (s.setV x (s.getV x ^^^ s.getV y)).next

/-- 8xy4 ADD Vx, Vy (R146). -/
def execAddReg (x y : RegIdx) (s : State) : Result :=
  .next (s.setFlagThen (carryOut (s.getV x) (s.getV y)) x (sum8 (s.getV x) (s.getV y))).next

/-- 8xy5 SUB Vx, Vy (R147). -/
def execSub (x y : RegIdx) (s : State) : Result :=
  .next (s.setFlagThen (noBorrow (s.getV x) (s.getV y)) x (diff8 (s.getV x) (s.getV y))).next

/-- 8xy6 SHR Vx, Vy (R148). -/
def execShr (x y : RegIdx) (s : State) : Result :=
  .next (s.setFlagThen (lowBit (s.shiftSource x y)) x (shiftRight1 (s.shiftSource x y))).next

/-- 8xy7 SUBN Vx, Vy (R149). -/
def execSubn (x y : RegIdx) (s : State) : Result :=
  .next (s.setFlagThen (noBorrow (s.getV y) (s.getV x)) x (diff8 (s.getV y) (s.getV x))).next

/-- 8xyE SHL Vx, Vy (R150). -/
def execShl (x y : RegIdx) (s : State) : Result :=
  .next (s.setFlagThen (highBit (s.shiftSource x y)) x (shiftLeft1 (s.shiftSource x y))).next

/-- Cxkk RND Vx, kk (R151): the drawn byte is a free value (assumption 1). -/
def execRnd (x : RegIdx) (kk : Byte) (s : State) : Result :=
  .next (s.drawRand.2.setV x (s.drawRand.1 &&& kk)).next

end Sys2Proof.Machine
end

