-- ==== Sys2Proof/Machine/Cycle.lean ====
section
/-! DEFINITION. The instruction cycle (40_cycle_and_flow.md R100, R101): fetch, decode, execute. A
cycle runs only inside a tick whose instruction gate fires (60_exceptions.md R242), so the conditions of the gate are the
tick's and not the cycle's. -/

namespace Sys2Proof.Machine

/-- The fetch: the big-endian word at PC, or `FetchOutOfRange` when PC + 1 > 0xFFF (R57, R101). -/
def fetch (s : State) : Except Cause Word :=
  if s.pc.toNat + 1 > 0xFFF then .error .fetchOutOfRange
  else .ok (wordOfBytes (s.readByte s.pc.toNat) (s.readByte (s.pc.toNat + 1)))

/-- `step()` of R100: one instruction. Only `tick` calls it (R242). -/
def cycle (s : State) : Result :=
  match fetch s with
  | .error c => .next (s.raise c 0)
  | .ok w =>
    match decode w with
    | none => .next (s.raise .unknownOpcode w)
    | some i => exec i s

end Sys2Proof.Machine
end

