-- ==== Sys2Proof/Machine/Transactions.lean ====
section
/-! DEFINITION. The host's transactions: reset and program load (70_reset_and_hazards.md R280, R282), the timing gate and
the key events (60_exceptions.md R241 to R247), and the host's reads (R248). Each is one atomic transition (R240). -/

namespace Sys2Proof.Machine

/-- `reset()` (R280), in any state: every piece of the machine's state takes its reset value. The parameters stay as
they were built (R37), and so do the model's own fields: the draws go on, since reset reseeds a source of which nothing
is known (D6; assumption 1). -/
def hostReset (s : State) : State :=
  { State.reset with params := s.params, rngDraws := s.rngDraws, hostCalls := s.hostCalls }

/-- What `loadProgram` reports to the host (R235, R282). -/
inductive LoadReport where
  | ok
  | romTooLarge
  deriving DecidableEq, Repr

/-- Copies bytes to memory from an address up (R282). -/
def State.copyBytes (s : State) (a : Nat) : List Byte → State
  | [] => s
  | b :: bs => (s.copyBytes (a + 1) bs).writeByte a b

/-- `loadProgram(bytes)` (R282): a program over 4096 − 512 = 3584 bytes changes nothing; otherwise the machine is reset
and the bytes are copied from the program origin 0x200 (R5). The report is the host's, a step keeps the state
(assumption 14). -/
def hostLoad (bytes : List Byte) (s : State) : LoadReport × State :=
  if bytes.length > 3584 then (.romTooLarge, s)
  else (.ok, (hostReset s).copyBytes 0x200 bytes)

/-- The decrement of a timer: saturating at 0 (R26, R243). -/
def countDown (t : Byte) : Byte := if t = 0 then 0 else t - 1

/-- The timer gate (R243). -/
def timerGate (now : BitVec 64) (s : State) : State :=
  if now.toNat - s.lastTimerTime.toNat > s.params.timerGapMs then
    { s with dt := countDown s.dt, st := countDown s.st, lastTimerTime := now }
  else s

/-- The instruction gate's condition (R242). -/
def instrGateOpen (now : BitVec 64) (s : State) : Bool :=
  decide (now.toNat - s.lastInstrTime.toNat > s.params.instrGapMs) && s.wait.isNone

/-- The violation of the host's contract for time that the state can detect (R240, D2). -/
def timeBackward (now : BitVec 64) (s : State) : Bool :=
  decide (now.toNat < s.lastInstrTime.toNat) || decide (now.toNat < s.lastTimerTime.toNat)

/-- The end of a tick whose instruction gate fired: a fault ended the tick (R234), otherwise the gate's time is
written and the timer gate follows (R242, R244). -/
def afterInstr (now : BitVec 64) : Result → Result
  | .next t => if t.halted then .next t else .next (timerGate now { t with lastInstrTime := now })
  | .fault f => .fault f
  | .refused r => .refused r

/-- `tick(now)` (R241 to R244); the halted machine comes before the host's contract (assumption 10). -/
def hostTick (now : BitVec 64) (s : State) : Result :=
  if s.halted then .next s
  else if !s.started then .next { s with started := true, lastInstrTime := now, lastTimerTime := now }
  else if timeBackward now s then .refused .hostTimeBackward
  else if instrGateOpen now s then afterInstr now (cycle s)
  else .next (timerGate now s)

/-- The completion of a key wait by key `k` (R245); a halted core completes none (R233, D14, D24;
assumption 15). -/
def State.completeWait (s : State) (k : Nat) : State :=
  match s.wait with
  | some x => if s.halted then s else { s.setV x (BitVec.ofNat 8 k) with wait := none }.next
  | none => s

/-- `keyDown(k)` (R245); a key above 15 breaks the host's contract (R240, D25). -/
def hostKeyDown (k : Nat) (s : State) : Result :=
  if h : k < 16 then .next ({ s with key := s.key.set k true }.completeWait k) else .refused .hostKeyIndex

/-- `keyUp(k)` (R246); a key above 15 breaks the host's contract (R240, D25). -/
def hostKeyUp (k : Nat) (s : State) : Result :=
  if h : k < 16 then .next { s with key := s.key.set k false } else .refused .hostKeyIndex

/-- `clearDirty()` (R247). -/
def hostClearDirty (s : State) : State := { s with dirty := false }

/-- What the host may read between transactions (R248). -/
structure HostView where
  disp : BitVec 2048
  dirty : Bool
  halted : Bool
  faultCode : BitVec 4
  faultWord : Word
  faultPc : Word
  deriving DecidableEq, Repr

/-- The host's reads (R248; assumption 16). -/
def hostView (s : State) : HostView :=
  { disp := s.disp, dirty := s.dirty, halted := s.halted, faultCode := s.faultCode, faultWord := s.faultWord,
    faultPc := s.faultPc }

/-- One host transaction (R240). -/
def hostCall (c : HostCall) (s : State) : Result :=
  match c with
  | .reset => .next (hostReset s)
  | .loadProgram bytes => .next (hostLoad bytes s).2
  | .tick now => hostTick now s
  | .keyDown k => hostKeyDown k s
  | .keyUp k => hostKeyUp k s
  | .clearDirty => .next (hostClearDirty s)
  | .read => .next s

/-! ### Placing a word, with the tick that runs it (assumption 11) -/

/-- The host's ticks from time `now` on, `n` of them, each `gap` after the one before. -/
def ticksFrom (gap : Nat) : Nat → Nat → List HostCall
  | _, 0 => []
  | now, n + 1 => .tick (BitVec.ofNat 64 now) :: ticksFrom gap (now + gap) n

/-- The earliest time at which the instruction gate of a started machine fires and the host keeps its contract
(R240, R242). -/
def State.gateTime (s : State) : Nat := max (s.lastInstrTime.toNat + s.params.instrGapMs + 1) s.lastTimerTime.toNat

/-- A started machine whose host calls `n` ticks, the first at the earliest time that fires the instruction gate and each
later one at the earliest after it. Where that time does not fit 64 bits, the gate's times start again at 0. -/
def State.withTicks (s : State) (n : Nat) : State :=
  let t := if s.gateTime < 2 ^ 64 then s else { s with lastInstrTime := 0, lastTimerTime := 0 }
  { t with started := true, hostCalls := ticksFrom (s.params.instrGapMs + 1) t.gateTime n }

/-- Puts an instruction's word where the next tick fetches it, in a machine that runs, and makes that tick the next host
transaction: the body of `State.withFetchWord`. The wait and the halt are cleared, and a PC that cannot be fetched at is set
to the program origin 0x200. -/
def State.placeWord (s : State) (w : Word) : State :=
  let t := { s with
    pc := if s.pc.toNat + 1 > 0xFFF then 0x200#16 else s.pc
    wait := none, halted := false, faultCode := 0 }.withTicks 1
  (t.writeByte t.pc.toNat (w.extractLsb' 8 8)).writeByte (t.pc.toNat + 1) (w.extractLsb' 0 8)

end Sys2Proof.Machine
end

