-- ==== Sys2Proof/Machine/Step.lean ====
section
/-! DEFINITION. One step of the machine: the host's next transaction. "The host drives the block only through the
transactions" (60_exceptions.md R240): an instruction runs only in a `tick` whose gate fires (R242), and where the host
calls nothing, nothing changes (40_cycle_and_flow.md R103; assumptions 4 and 12). -/

namespace Sys2Proof.Machine

/-- One step. -/
def step (s : State) : Host.Outcome State Fault Refusal :=
  match s.hostCalls with
  | c :: rest => hostCall c { s with hostCalls := rest }
  | [] => .next s

/-- The state with an instruction, its bits numbered as spec/opcode_table.json numbers them, stored where the next tick
fetches, and that tick called next (assumption 11). -/
def State.withFetchWord (s : State) (nbits w : Nat) : State := s.placeWord (tableWord nbits w)

end Sys2Proof.Machine
end

