-- ==== Sys2Proof/Safety.lean ====
section
/-! DEFINITION. What the statements speak of: the invariants of a legal state (10_state.md R38), and the frame of an
instruction: which parts of the state a next state has unchanged. -/

namespace Sys2Proof

open Sys2Proof.Machine

/-- A legal state (R38, R284). That pixels and key states are 0 or 1 and that Wait is −1 or 0 to 15 is in their types.
The codes are those of R230; the last field is the memory's canonical form, the model's own. -/
structure Legal (s : State) : Prop where
  /-- 0 ≤ SP ≤ 16. -/
  sp_le : s.sp.toNat ≤ 16
  /-- halted = 1 exactly when fault_code ≠ 0. -/
  halted_iff : s.halted = true ↔ s.faultCode ≠ 0
  /-- halted = 1 implies Wait = −1. -/
  halted_wait : s.halted = true → s.wait = none
  /-- fault_code is 0 to 7. -/
  code_le : s.faultCode.toNat ≤ 7
  /-- The memory is in canonical form. -/
  mem_wf : Memory.wf s.params.font s.mem = true

/-- The check of `Legal` on a state that is written out. -/
def legalCheck (s : State) : Bool :=
  decide (s.sp.toNat ≤ 16) && (s.halted == (s.faultCode != 0)) && (!s.halted || s.wait.isNone) &&
    decide (s.faultCode.toNat ≤ 7) && Memory.wf s.params.font s.mem

/-- The parts of the state beside the general registers, PC, the parameters and the pending host transactions. -/
inductive Part where
  /-- I (R22). -/
  | index
  /-- SP and the call stack (R24, R25). -/
  | stack
  /-- DT (R26). -/
  | delay
  /-- ST (R27). -/
  | sound
  /-- Wait (R28). -/
  | wait
  /-- The key states (R29). -/
  | keys
  /-- The pixels (R30). -/
  | pixels
  /-- Dirty (R31). -/
  | dirty
  /-- The gate's state (R32). -/
  | gate
  /-- The fault latch (R33). -/
  | latch
  /-- Every byte of memory (R34). -/
  | memory
  /-- The model's count of draws. -/
  | draws
  deriving DecidableEq, Repr

/-- The part is the same in both states. -/
def Part.Same (s t : State) : Part → Prop
  | .index => t.i = s.i
  | .stack => t.sp = s.sp ∧ t.stack = s.stack
  | .delay => t.dt = s.dt
  | .sound => t.st = s.st
  | .wait => t.wait = s.wait
  | .keys => t.key = s.key
  | .pixels => t.disp = s.disp
  | .dirty => t.dirty = s.dirty
  | .gate => t.started = s.started ∧ t.lastInstrTime = s.lastInstrTime ∧ t.lastTimerTime = s.lastTimerTime
  | .latch => t.halted = s.halted ∧ t.faultCode = s.faultCode ∧ t.faultWord = s.faultWord ∧ t.faultPc = s.faultPc
  | .memory => ∀ a, t.readByte a = s.readByte a
  | .draws => t.rngDraws = s.rngDraws

/-- The frame: going from `s` to `t`, every general register but those listed, every part but those listed, the
parameters and the pending host transactions are unchanged. It says nothing about PC. -/
structure Frame (regs : List RegIdx) (parts : List Part) (s t : State) : Prop where
  regs_same : ∀ r, r ∉ regs → t.getV r = s.getV r
  parts_same : ∀ p, p ∉ parts → Part.Same s t p
  params_same : t.params = s.params
  calls_same : t.hostCalls = s.hostCalls

/-- The state a raised cause leaves (R231): only the fault latch is written; the word is recorded, and the PC. -/
def Raised (s : State) (code : BitVec 4) (w : Word) (t : State) : Prop :=
  Frame [] [.latch] s t ∧ t.pc = s.pc ∧ t.halted = true ∧ t.faultCode = code ∧ t.faultWord = w ∧ t.faultPc = s.pc

/-- The bit of a sprite at row `r` and column `c`, column 0 the most significant: bit 7 − c of the byte at I + r
(R191). -/
def spriteBit (s : State) (r c : Nat) : Bool := (s.readByte (s.i.toNat + r)).getLsbD (7 - c)

/-- The pixel index of a sprite's row `r` and column `c` drawn at Vx, Vy: no wrap, no clip (R191). -/
def spritePixel (s : State) (x y : RegIdx) (r c : Nat) : Nat :=
  ((s.getV y).toNat + r) * 64 + ((s.getV x).toNat + c)

/-- Entry `j` of the call stack (R25); 0 for an index it does not have. -/
def stackAt (s : State) (j : Nat) : Word := s.stack.toList.getD j 0

/-- The state of key `k` (R29); false for a key there is not. -/
def keyAt (s : State) (k : Nat) : Bool := s.key.toList.getD k false

/-- Every piece of the machine's state but memory has its reset value (R39). -/
structure ResetButMemory (t : State) : Prop where
  regs : ∀ r, t.getV r = 0
  index : t.i = 0
  pc : t.pc = 0x200
  sp : t.sp = 0
  stack : ∀ j < 16, stackAt t j = 0
  timers : t.dt = 0 ∧ t.st = 0
  keys : ∀ k < 16, keyAt t k = false
  wait : t.wait = none
  pixels : ∀ p < 2048, Display.pixel t.disp p = false
  dirty : t.dirty = false
  gate : t.started = false ∧ t.lastInstrTime = 0 ∧ t.lastTimerTime = 0
  latch : t.halted = false ∧ t.faultCode = 0 ∧ t.faultWord = 0 ∧ t.faultPc = 0

/-- What reset leaves at an address: `FONT` at [0, 80) and 0 above (R39). -/
def ResetByteIs (t : State) (a : Nat) : Prop :=
  (∀ h : a < 80, t.readByte a = t.params.font[a]) ∧ (80 ≤ a → t.readByte a = 0)

/-- Two states agree on everything an instruction may read or write but ST and Dirty. -/
def SameButSoundAndDirty (t u : State) : Prop := { u with st := t.st, dirty := t.dirty } = t

/-- The instruction gate of `tick(now)` fires (R241, R242), with the host's contract for time kept (R240). -/
structure GateOpens (now : BitVec 64) (s : State) : Prop where
  running : s.halted = false
  started : s.started = true
  instr_le : s.lastInstrTime.toNat ≤ now.toNat
  timer_le : s.lastTimerTime.toNat ≤ now.toNat
  gap : s.params.instrGapMs < now.toNat - s.lastInstrTime.toNat
  awake : s.wait = none

/-- The instruction names the general register as one it writes: row Vx of the access matrix (R40), with the registers
V0 to Vx of Fx65. -/
def Instr.namesDest (i : Instr) (r : RegIdx) : Prop :=
  match i with
  | .ldImm x _ | .addImm x _ | .rnd x _ => r = x
  | .ldReg x _ | .orReg x _ | .andReg x _ | .xorReg x _ => r = x
  | .addReg x _ | .sub x _ | .shr x _ | .subn x _ | .shl x _ => r = x
  | .ldVxDt x => r = x
  | .ldVxMem x => r.toNat ≤ x.toNat
  | .cls | .ret | .jp _ | .call _ | .seImm _ _ | .sneImm _ _ | .seReg _ _ | .sneReg _ _ | .jpV0 _ => False
  | .ldI _ | .addIVx _ | .ldFVx _ | .ldBVx _ | .ldMemVx _ | .drw _ _ _ => False
  | .skp _ | .sknp _ | .ldVxK _ | .ldDtVx _ | .ldStVx _ => False

/-- The instruction writes VF as a side effect: row VF of the access matrix (R40, R21). -/
def Instr.writesFlag (i : Instr) : Prop :=
  match i with
  | .addReg _ _ | .sub _ _ | .shr _ _ | .subn _ _ | .shl _ _ | .drw _ _ _ => True
  | .cls | .ret | .jp _ | .call _ | .seImm _ _ | .sneImm _ _ | .seReg _ _ | .sneReg _ _ | .jpV0 _ => False
  | .ldImm _ _ | .addImm _ _ | .rnd _ _ | .ldReg _ _ | .orReg _ _ | .andReg _ _ | .xorReg _ _ => False
  | .ldI _ | .addIVx _ | .ldFVx _ | .ldBVx _ | .ldMemVx _ | .ldVxMem _ => False
  | .skp _ | .sknp _ | .ldVxDt _ | .ldVxK _ | .ldDtVx _ | .ldStVx _ => False

/-- The timers and the timer gate's time after the timer gate of a tick at `now` (R243): each timer falls by one and
stays at 0, when more than the gap has passed. -/
def TimersAfter (now : BitVec 64) (t u : State) : Prop :=
  if now.toNat - t.lastTimerTime.toNat > t.params.timerGapMs then
    u.dt.toNat = t.dt.toNat - 1 ∧ u.st.toNat = t.st.toNat - 1 ∧ u.lastTimerTime = now
  else u.dt = t.dt ∧ u.st = t.st ∧ u.lastTimerTime = t.lastTimerTime

/-- Every row of the sprite Dxyn draws is in memory, and every set bit of it falls on the display (R191). -/
def SpriteFits (s : State) (x y : RegIdx) (n : Nibble) : Prop :=
  ∀ r < n.toNat, s.i.toNat + r ≤ 0xFFF ∧ ∀ c < 8, spriteBit s r c = true → spritePixel s x y r c ≤ 2047

end Sys2Proof
end

