-- ==== Sys2Proof/Certificates/Slice0/Obligations.lean ====
section
/-! DEFINITION. The statements about the machine, from the numbered rules of the spec. `Frame regs parts s t` says that
every register but those listed, every part of the state but those listed, the parameters and the pending host
transactions are the same in `t` as in `s`. -/

open Sys2Proof Sys2Proof.Machine

/-! ### Reset and legal states -/

/-- R39, R281: the values of the reset state; the parameters are the defaults of R6. The values of Dirty, Wait, the
gate and the fault latch are the spec's own decisions D14, D22, D23, D34 and D36. -/
def Obligations.ResetLeavesResetValues : Prop :=
  ResetButMemory State.reset ∧ (∀ a, ResetByteIs State.reset a) ∧ State.reset.params = Config.standard

/-- R280: `reset()` in any state, halted or waiting, gives every piece of state its reset value and does not change the
parameters (decisions as for the reset state). -/
def Obligations.HostResetGivesResetValues : Prop :=
  ∀ s, ∃ t, hostCall .reset s = .next t ∧ ResetButMemory t ∧ (∀ a, ResetByteIs t a) ∧ t.params = s.params

/-- R38: the invariants hold at reset. -/
def Obligations.ResetIsLegal : Prop := Legal State.reset

/-- R38 (an inference the spec marks as derived), with the memory's canonical form, the model's own: every step of a
legal state, an instruction or a host transaction, leaves a legal state. -/
def Obligations.StepKeepsLegal : Prop := ∀ s t, Legal s → step s = .next t → Legal t

/-- R37: "no instruction and no host transaction changes them, and reset does not change them". -/
def Obligations.ParametersNeverChange : Prop := ∀ s t, step s = .next t → t.params = s.params

/-! ### Encoding -/

/-- R74: a few words written out from the opcode map, legal and illegal. -/
def Obligations.SampleWordsDecode : Prop :=
  decode 0b0000000011101110 = some .ret ∧ decode 0b0010001000010000 = some (.call 0x210) ∧
  decode 0b0110101001000010 = some (.ldImm 0xA 0x42) ∧ decode 0b1000000100101110 = some (.shl 0x1 0x2) ∧
  decode 0b1010001011110000 = some (.ldI 0x2F0) ∧ decode 0b1101001100110101 = some (.drw 0x3 0x3 0x5) ∧
  decode 0b1110010110011110 = some (.skp 0x5) ∧ decode 0b1111000101100101 = some (.ldVxMem 0x1) ∧
  decode 0b0101000100100001 = none ∧ decode 0b0000000000000000 = none

/-- R70, R72, R74: decoding the two bytes of any instruction gives it back, with every operand at every value, and
leaves the bytes after it. -/
def Obligations.DecodeOfEncode : Prop :=
  ∀ (i : Instr) (rest : List Byte), decodeBytes (encodeBytes i ++ rest) = .ok (i, rest)

/-- R74: a legal word has no bit that its instruction does not hold: encoding what it decodes to gives it back. -/
def Obligations.EncodeOfDecode : Prop := ∀ (w : Word) (i : Instr), decode w = some i → encode i = w

/-- R74: a word that decodes matches its instruction's row of the map and no other row, and a word that does not decode
matches no row. -/
def Obligations.DecodeFollowsOpcodeMap : Prop :=
  (∀ w i, decode w = some i → i.row ∈ opcodeRows ∧ ∀ r ∈ opcodeRows, (r.fits w = true ↔ r = i.row)) ∧
  ∀ w, decode w = none → ∀ r ∈ opcodeRows, r.fits w = false

/-- R75: the illegal words by top nibble. That 5xyN and 9xyN with N ≠ 0 are illegal is the spec's decision D21. -/
def Obligations.IllegalWordsByTopNibble : Prop :=
  ∀ w : Word, decode w = none ↔
    (w.toNat / 0x1000 = 0 ∧ w.toNat ≠ 0x00E0 ∧ w.toNat ≠ 0x00EE) ∨
    (w.toNat / 0x1000 = 5 ∧ w.toNat % 0x10 ≠ 0) ∨
    (w.toNat / 0x1000 = 8 ∧ w.toNat % 0x10 ∈ [0x8, 0x9, 0xA, 0xB, 0xC, 0xD, 0xF]) ∨
    (w.toNat / 0x1000 = 9 ∧ w.toNat % 0x10 ≠ 0) ∨
    (w.toNat / 0x1000 = 0xE ∧ w.toNat % 0x100 ∉ [0x9E, 0xA1]) ∨
    (w.toNat / 0x1000 = 0xF ∧ w.toNat % 0x100 ∉ [0x07, 0x0A, 0x15, 0x18, 0x1E, 0x29, 0x33, 0x55, 0x65])

/-! ### The instruction cycle -/

/-- R53, R100, R101, R242: when the instruction gate of a tick fires and the bytes at PC and PC + 1 decode to an instruction,
the step is that instruction's execution, on the state with that tick taken from the host's calls, and around it
`afterInstr` alone: a fault ends the tick, otherwise the gate's time is written and the timer gate follows. -/
def Obligations.StepRunsDecodedInstruction : Prop :=
  ∀ s i now rest, s.hostCalls = .tick now :: rest → GateOpens now s → s.pc.toNat + 1 ≤ 0xFFF →
    decodeBytes [s.readByte s.pc.toNat, s.readByte (s.pc.toNat + 1)] = .ok (i, []) →
    step s = afterInstr now (exec i { s with hostCalls := rest })

/-- R57, R100, R231 (decisions D7, D9, D13, D35, D37): a fetch at PC ≥ 0xFFF raises FetchOutOfRange (4) and records
0x0000, and nothing else of the tick happens. -/
def Obligations.FetchOutOfRangeFaults : Prop :=
  ∀ s now rest, s.hostCalls = .tick now :: rest → GateOpens now s → 0xFFF ≤ s.pc.toNat →
    ∃ t, step s = .next t ∧ Raised { s with hostCalls := rest } 4 0x0000 t

/-- R75, R100, R231 (decisions D7, D13, D35): an illegal word raises UnknownOpcode (1), with the word and PC recorded, and
nothing else of the tick happens. -/
def Obligations.IllegalWordFaults : Prop :=
  ∀ s w now rest, s.hostCalls = .tick now :: rest → GateOpens now s → s.pc.toNat + 1 ≤ 0xFFF →
    w.toNat = (s.readByte s.pc.toNat).toNat * 256 + (s.readByte (s.pc.toNat + 1)).toNat → decode w = none →
    ∃ t, step s = .next t ∧ Raised { s with hostCalls := rest } 1 w t

/-- R233, R242, R249 (decision D14): no tick of a halted or waiting machine executes an instruction; at most the timers
and the gate's times change. -/
def Obligations.HaltedOrWaitingCoreIdles : Prop :=
  ∀ now s t, (s.halted = true ∨ s.wait ≠ none) → hostCall (.tick now) s = .next t →
    t.pc = s.pc ∧ Frame [] [.delay, .sound, .gate] s t

/-- R103, R240 (decision D1): where the host calls nothing, nothing changes. That such a step answers the same state is the
model's convention (assumption 12). -/
def Obligations.NoHostCallNoChange : Prop := ∀ s, s.hostCalls = [] → step s = .next s

/-- R289, R103, R240, R242 (decisions D1, D3): a step that changes anything but the keys, Dirty, the timers and the gate is
a reset, a load, the key that ends a wait, or a tick whose instruction gate fires; every other step of a started machine
keeps `last_instr_time`. And after a tick that ran an instruction, the next instruction's tick is more than INSTR_GAP_MS
later. -/
def Obligations.InstructionsNeedSpacedTicks : Prop :=
  (∀ s t, step s = .next t →
    ((∀ r, t.getV r = s.getV r) ∧ t.pc = s.pc ∧
      (∀ p, p ∉ [Part.keys, .dirty, .delay, .sound, .gate] → Part.Same s t p) ∧
      (s.started = true → t.lastInstrTime = s.lastInstrTime)) ∨
    (∃ rest, s.hostCalls = .reset :: rest) ∨
    (∃ bytes rest, s.hostCalls = .loadProgram bytes :: rest ∧ bytes.length ≤ 3584) ∨
    (∃ k rest, s.hostCalls = .keyDown k :: rest ∧ s.wait ≠ none) ∨
    (∃ now rest, s.hostCalls = .tick now :: rest ∧ GateOpens now s ∧ (t.halted = false → t.lastInstrTime = now))) ∧
  (∀ a b s t, GateOpens a s → hostCall (.tick a) s = .next t → t.halted = false → GateOpens b t →
    a.toNat + s.params.instrGapMs < b.toNat)

/-- R240 (decision D1): each of the host's transactions is one step. That the calls stand in a list of the state and are taken
in its order is the model's convention (assumption 4). -/
def Obligations.PendingHostCallComesFirst : Prop :=
  ∀ s c rest, s.hostCalls = c :: rest → step s = hostCall c { s with hostCalls := rest }

/-- R7, R231 (decision D13): an instruction that raises changes nothing but the fault latch, which records its own word
and PC under a code 1 to 7; an instruction that does not raise leaves the latch as it was. -/
def Obligations.FaultsArePrecise : Prop :=
  ∀ i s t, s.halted = false → exec i s = .next t →
    (∃ code, code ≠ 0 ∧ code.toNat ≤ 7 ∧ Raised s code (encode i) t) ∨ Part.Same s t .latch

/-- R40 (an inference the spec marks as derived), R21, R25, R29, R30: an instruction that is not among the writers the access
matrix names leaves the piece of state as it was. The rows rest on the spec's decisions D13 (a raise writes nothing), D16 and
D17 (VF), D19 (I after Fx55 and Fx65) and D20 (which opcode writes Vx, DT and ST). -/
def Obligations.OnlyNamedInstructionsWrite : Prop :=
  ∀ i s t, exec i s = .next t →
    (∀ r, ¬ i.namesDest r → ¬ (r = vF ∧ i.writesFlag) → t.getV r = s.getV r) ∧
    ((∀ a, i ≠ .ldI a) ∧ (∀ x, i ≠ .addIVx x) ∧ (∀ x, i ≠ .ldFVx x) → t.i = s.i) ∧
    ((∀ a, i ≠ .call a) ∧ i ≠ .ret → t.sp = s.sp) ∧
    ((∀ a, i ≠ .call a) → t.stack = s.stack) ∧
    ((∀ x, i ≠ .ldDtVx x) → t.dt = s.dt) ∧
    ((∀ x, i ≠ .ldStVx x) → t.st = s.st) ∧
    ((∀ x, i ≠ .ldVxK x) → t.wait = s.wait) ∧
    t.key = s.key ∧
    (i ≠ .cls ∧ (∀ x y n, i ≠ .drw x y n) → t.disp = s.disp ∧ t.dirty = s.dirty) ∧
    ((∀ x, i ≠ .ldBVx x) ∧ (∀ x, i ≠ .ldMemVx x) → ∀ a, t.readByte a = s.readByte a) ∧
    Part.Same s t .gate

/-- R27, R31: "No instruction reads it", of ST and of Dirty: two states that differ in them alone run to states that
differ in them alone. -/
def Obligations.SoundTimerAndDirtyAreUnread : Prop :=
  ∀ i s b d t, exec i s = .next t →
    ∃ u, exec i { s with st := b, dirty := d } = .next u ∧ SameButSoundAndDirty t u

/-- R62, R286 (decision D28): two bytes that Fx55 stores over the next instruction are what the next instruction's tick
runs. -/
def Obligations.StoredWordIsFetchedNext : Prop :=
  ∀ s j now rest, Legal s → s.hostCalls = .tick now :: rest → GateOpens now s → s.pc.toNat + 3 ≤ 0xFFF →
    s.i = s.pc + 2 → decode (wordOfBytes (s.getV 0) (s.getV 1)) = some j →
    ∃ t, exec (.ldMemVx 1) s = .next t ∧ step t = afterInstr now (exec j { t with hostCalls := rest })

/-! ### Control flow -/

/-- R105: PC <- zext_16(nnn). -/
def Obligations.JumpSetsPc : Prop :=
  ∀ nnn s, ∃ t, exec (.jp nnn) s = .next t ∧ t.pc.toNat = nnn.toNat ∧ Frame [] [] s t

/-- R106: below 16 entries the CALL's own address is pushed and PC <- nnn; at 16, StackOverflow (2), which the spec
decides in D7 and D8. -/
def Obligations.CallPushesItsAddress : Prop :=
  ∀ nnn s,
    (s.sp.toNat < 16 → ∃ t, exec (.call nnn) s = .next t ∧ t.pc.toNat = nnn.toNat ∧ t.sp.toNat = s.sp.toNat + 1 ∧
      (∀ j < 16, stackAt t j = if j = s.sp.toNat then s.pc else stackAt s j) ∧ Frame [] [.stack] s t) ∧
    (s.sp.toNat = 16 → ∃ t, exec (.call nnn) s = .next t ∧ Raised s 2 (encode (.call nnn)) t)

/-- R104: the last entry is popped and PC <- it + 2, the entries keeping their values (R25); on an empty stack,
StackUnderflow (3), which the spec decides in D7 and D8. -/
def Obligations.ReturnPopsAndAddsTwo : Prop :=
  ∀ s,
    (0 < s.sp.toNat ∧ s.sp.toNat ≤ 16 → ∃ t, exec .ret s = .next t ∧ t.sp.toNat = s.sp.toNat - 1 ∧
      t.pc = stackAt s (s.sp.toNat - 1) + 2 ∧ t.stack = s.stack ∧ Frame [] [.stack] s t) ∧
    (s.sp.toNat = 0 → ∃ t, exec .ret s = .next t ∧ Raised s 3 (encode .ret) t)

/-- R104, R106, and the source's own test E7: a CALL followed by a RET, with any state that kept the stack and SP in
between, resumes at the CALL's address + 2 with SP as before. -/
def Obligations.CallThenReturnResumes : Prop :=
  ∀ nnn s, s.sp.toNat < 16 → ∃ t, exec (.call nnn) s = .next t ∧
    ∀ u, u.sp = t.sp → u.stack = t.stack → ∃ r, exec .ret u = .next r ∧ r.pc = s.pc + 2 ∧ r.sp = s.sp

/-- The model's convention after U19 and R284 (assumption 7): in a state with SP > 16, which the invariants rule out, CALL
and RET are refused by name. -/
def Obligations.CallAndReturnOutsideInvariantRefused : Prop :=
  ∀ nnn s, 16 < s.sp.toNat →
    exec (.call nnn) s = .refused .stateOutsideModel ∧
    (exec .ret s = .refused .stateOutsideModel)

/-- R107, R108: skip if equal, skip if not equal to the immediate; no flag. -/
def Obligations.SkipOnImmediate : Prop :=
  ∀ x kk s,
    (∃ t, exec (.seImm x kk) s = .next t ∧ t.pc = (if s.getV x = kk then s.pc + 4 else s.pc + 2) ∧
      Frame [] [] s t) ∧
    (∃ t, exec (.sneImm x kk) s = .next t ∧ t.pc = (if s.getV x = kk then s.pc + 2 else s.pc + 4) ∧
      Frame [] [] s t)

/-- R109, R110: skip if the registers are equal, skip if they differ; no flag. -/
def Obligations.SkipOnRegisters : Prop :=
  ∀ x y s,
    (∃ t, exec (.seReg x y) s = .next t ∧ t.pc = (if s.getV x = s.getV y then s.pc + 4 else s.pc + 2) ∧
      Frame [] [] s t) ∧
    (∃ t, exec (.sneReg x y) s = .next t ∧ t.pc = (if s.getV x = s.getV y then s.pc + 2 else s.pc + 4) ∧
      Frame [] [] s t)

/-- R111: PC <- nnn + V0, not reduced to 12 bits. -/
def Obligations.JumpPlusV0 : Prop :=
  ∀ nnn s, ∃ t, exec (.jpV0 nnn) s = .next t ∧ t.pc.toNat = nnn.toNat + (s.getV 0).toNat ∧ Frame [] [] s t

/-! ### Register loads and ALU -/

/-- R140, R142: Vx <- kk; Vx <- Vy; nothing else but PC + 2. -/
def Obligations.LoadsWriteVx : Prop :=
  (∀ x kk s, ∃ t, exec (.ldImm x kk) s = .next t ∧ t.getV x = kk ∧ t.pc = s.pc + 2 ∧ Frame [x] [] s t) ∧
  (∀ x y s, ∃ t, exec (.ldReg x y) s = .next t ∧ t.getV x = s.getV y ∧ t.pc = s.pc + 2 ∧ Frame [x] [] s t)

/-- R141: Vx <- trunc_8(Vx + kk); VF is not written unless x = F. -/
def Obligations.AddImmediateWraps : Prop :=
  ∀ x kk s, ∃ t, exec (.addImm x kk) s = .next t ∧ (t.getV x).toNat = ((s.getV x).toNat + kk.toNat) % 256 ∧
    t.pc = s.pc + 2 ∧ Frame [x] [] s t

/-- R143, R144, R145: bit by bit; that VF is not written (unless x = F) is the spec's decision D16. -/
def Obligations.LogicIsBitwise : Prop :=
  ∀ x y s,
    (∃ t, exec (.orReg x y) s = .next t ∧ t.pc = s.pc + 2 ∧ Frame [x] [] s t ∧
      ∀ k < 8, (t.getV x).getLsbD k = ((s.getV x).getLsbD k || (s.getV y).getLsbD k)) ∧
    (∃ t, exec (.andReg x y) s = .next t ∧ t.pc = s.pc + 2 ∧ Frame [x] [] s t ∧
      ∀ k < 8, (t.getV x).getLsbD k = ((s.getV x).getLsbD k && (s.getV y).getLsbD k)) ∧
    (∃ t, exec (.xorReg x y) s = .next t ∧ t.pc = s.pc + 2 ∧ Frame [x] [] s t ∧
      ∀ k < 8, (t.getV x).getLsbD k = ((s.getV x).getLsbD k != (s.getV y).getLsbD k))

/-- R146: the wrapped sum in Vx and the carry in VF; that both operands are read first and that with x = F the sum stays
is the spec's decision D15. -/
def Obligations.AddRegistersCarries : Prop :=
  ∀ x y s, ∃ t, exec (.addReg x y) s = .next t ∧
    (t.getV x).toNat = ((s.getV x).toNat + (s.getV y).toNat) % 256 ∧
    (x ≠ vF → t.getV vF = if (s.getV x).toNat + (s.getV y).toNat > 0xFF then 1 else 0) ∧
    t.pc = s.pc + 2 ∧ Frame [x, vF] [] s t

/-- R147, R149: the wrapped difference in Vx and in VF whether the minuend is strictly greater; the order of reads and
writes is the spec's decision D15. -/
def Obligations.SubtractSetsNoBorrow : Prop :=
  ∀ x y s,
    (∃ t, exec (.sub x y) s = .next t ∧
      (t.getV x).toNat = ((s.getV x).toNat + 256 - (s.getV y).toNat) % 256 ∧
      (x ≠ vF → t.getV vF = if (s.getV x).toNat > (s.getV y).toNat then 1 else 0) ∧
      t.pc = s.pc + 2 ∧ Frame [x, vF] [] s t) ∧
    (∃ t, exec (.subn x y) s = .next t ∧
      (t.getV x).toNat = ((s.getV y).toNat + 256 - (s.getV x).toNat) % 256 ∧
      (x ≠ vF → t.getV vF = if (s.getV y).toNat > (s.getV x).toNat then 1 else 0) ∧
      t.pc = s.pc + 2 ∧ Frame [x, vF] [] s t)

/-- R148, R150: the source is Vy in legacy mode and Vx in modern mode (parameter, D4); the result in Vx and the bit
shifted out in VF, in the order of the spec's decision D15. -/
def Obligations.ShiftsMoveOneBit : Prop :=
  ∀ x y s src, src = (if s.params.shiftQuirk = .legacy then s.getV y else s.getV x) →
    (∃ t, exec (.shr x y) s = .next t ∧ (t.getV x).toNat = src.toNat / 2 ∧
      (x ≠ vF → (t.getV vF).toNat = src.toNat % 2) ∧ t.pc = s.pc + 2 ∧ Frame [x, vF] [] s t) ∧
    (∃ t, exec (.shl x y) s = .next t ∧ (t.getV x).toNat = src.toNat * 2 % 256 ∧
      (x ≠ vF → (t.getV vF).toNat = src.toNat / 128) ∧ t.pc = s.pc + 2 ∧ Frame [x, vF] [] s t)

/-- R151, R252 (D6): Vx <- a drawn byte AND kk; each execution takes a new draw. The drawn byte is a free value
(assumption 1), so the statement holds whatever it is. -/
def Obligations.RandomByteIsMasked : Prop :=
  ∀ x kk s, ∃ t, exec (.rnd x kk) s = .next t ∧ t.getV x = Config.randomByte s.rngDraws &&& kk ∧
    t.rngDraws = s.rngDraws + 1 ∧ t.pc = s.pc + 2 ∧ Frame [x] [.draws] s t

/-! ### Index register and memory -/

/-- R170, R172: I <- nnn; I <- Vx · 5, Vx not reduced. -/
def Obligations.IndexLoads : Prop :=
  (∀ nnn s, ∃ t, exec (.ldI nnn) s = .next t ∧ t.i.toNat = nnn.toNat ∧ t.pc = s.pc + 2 ∧ Frame [] [.index] s t) ∧
  (∀ x s, ∃ t, exec (.ldFVx x) s = .next t ∧ t.i.toNat = (s.getV x).toNat * 5 ∧ t.pc = s.pc + 2 ∧
    Frame [] [.index] s t)

/-- R171: I <- trunc_16(I + Vx), no flag; the wrap and the flag are the spec's decision D17. -/
def Obligations.IndexAddWraps : Prop :=
  ∀ x s, ∃ t, exec (.addIVx x) s = .next t ∧ t.i.toNat = (s.i.toNat + (s.getV x).toNat) % 65536 ∧
    t.pc = s.pc + 2 ∧ Frame [] [.index] s t

/-- R173: the decimal digits of Vx at I, I + 1, I + 2, hundreds first (the spec's decision D18), and no other byte. -/
def Obligations.BcdStoresDigits : Prop :=
  ∀ x s, Legal s → s.i.toNat + 2 ≤ 0xFFF → ∃ t, exec (.ldBVx x) s = .next t ∧
    (t.readByte s.i.toNat).toNat = (s.getV x).toNat / 100 ∧
    (t.readByte (s.i.toNat + 1)).toNat = (s.getV x).toNat / 10 % 10 ∧
    (t.readByte (s.i.toNat + 2)).toNat = (s.getV x).toNat % 10 ∧
    (∀ a, a < s.i.toNat ∨ s.i.toNat + 3 ≤ a → t.readByte a = s.readByte a) ∧
    t.pc = s.pc + 2 ∧ Frame [] [.memory] s t

/-- R174: V0 to Vx at I to I + x and no other byte; that I is unchanged is the spec's decision D19. -/
def Obligations.StoreRegistersWritesRange : Prop :=
  ∀ x s, Legal s → s.i.toNat + x.toNat ≤ 0xFFF → ∃ t, exec (.ldMemVx x) s = .next t ∧
    (∀ r : RegIdx, r.toNat ≤ x.toNat → t.readByte (s.i.toNat + r.toNat) = s.getV r) ∧
    (∀ a, a < s.i.toNat ∨ s.i.toNat + x.toNat < a → t.readByte a = s.readByte a) ∧
    t.pc = s.pc + 2 ∧ Frame [] [.memory] s t

/-- R175: V0 to Vx from I to I + x, the registers above Vx unchanged; that I is unchanged is the spec's decision D19. -/
def Obligations.LoadRegistersReadsRange : Prop :=
  ∀ x s, s.i.toNat + x.toNat ≤ 0xFFF → ∃ t, exec (.ldVxMem x) s = .next t ∧
    (∀ r : RegIdx, t.getV r = if r.toNat ≤ x.toNat then s.readByte (s.i.toNat + r.toNat) else s.getV r) ∧
    t.pc = s.pc + 2 ∧ (∀ p, Part.Same s t p) ∧ t.params = s.params ∧ t.hostCalls = s.hostCalls

/-- R174, R175: what Fx55 stores, Fx65 loads again, whatever the registers hold in between. -/
def Obligations.StoreThenLoadRestores : Prop :=
  ∀ x s, Legal s → s.i.toNat + x.toNat ≤ 0xFFF → ∃ t, exec (.ldMemVx x) s = .next t ∧
    ∀ u, u.i = t.i → u.mem = t.mem → u.params = t.params →
      ∃ w, exec (.ldVxMem x) u = .next w ∧ ∀ r : RegIdx, r.toNat ≤ x.toNat → w.getV r = s.getV r

/-- R56, R231 (decisions D7, D10, D13): Fx33, Fx55 and Fx65 with a byte above 0xFFF raise MemoryOutOfRange (5), and no
byte and no register is written. -/
def Obligations.TransfersOutOfRangeFault : Prop :=
  ∀ x s,
    (0xFFF < s.i.toNat + 2 → ∃ t, exec (.ldBVx x) s = .next t ∧ Raised s 5 (encode (.ldBVx x)) t) ∧
    (0xFFF < s.i.toNat + x.toNat →
      (∃ t, exec (.ldMemVx x) s = .next t ∧ Raised s 5 (encode (.ldMemVx x)) t) ∧
      (∃ t, exec (.ldVxMem x) s = .next t ∧ Raised s 5 (encode (.ldVxMem x)) t))

/-! ### Display -/

/-- R190: every pixel 0, Dirty 1, VF not written. -/
def Obligations.ClearDisplay : Prop :=
  ∀ s, ∃ t, exec .cls s = .next t ∧ (∀ p < 2048, Display.pixel t.disp p = false) ∧ t.dirty = true ∧
    t.pc = s.pc + 2 ∧ Frame [] [.pixels, .dirty] s t

/-- R191: a sprite that fits inverts exactly the pixels its set bits fall on, at the unwrapped, unclipped index; VF is 1
when one of them was 1 and 0 otherwise; Dirty is set. -/
def Obligations.DrawXorsSprite : Prop :=
  ∀ x y n s, SpriteFits s x y n → ∃ t, exec (.drw x y n) s = .next t ∧
    (∀ p < 2048,
      ((∃ r < n.toNat, ∃ c < 8, spriteBit s r c = true ∧ spritePixel s x y r c = p) →
        Display.pixel t.disp p = !Display.pixel s.disp p) ∧
      ((¬ ∃ r < n.toNat, ∃ c < 8, spriteBit s r c = true ∧ spritePixel s x y r c = p) →
        Display.pixel t.disp p = Display.pixel s.disp p)) ∧
    ((∃ r < n.toNat, ∃ c < 8, spriteBit s r c = true ∧ Display.pixel s.disp (spritePixel s x y r c) = true) →
      t.getV vF = 1) ∧
    ((¬ ∃ r < n.toNat, ∃ c < 8, spriteBit s r c = true ∧ Display.pixel s.disp (spritePixel s x y r c) = true) →
      t.getV vF = 0) ∧
    t.dirty = true ∧ t.pc = s.pc + 2 ∧ Frame [vF] [.pixels, .dirty] s t

/-- R191, R232 (decisions D7, D10, D11, D13): the first row that cannot be drawn raises, MemoryOutOfRange (5) when its
byte is outside memory, else DisplayOutOfRange (6) when a set bit falls past pixel 2047, and nothing is drawn. -/
def Obligations.DrawOutOfRangeFaults : Prop :=
  ∀ x y n s r, r < n.toNat →
    (∀ q < r, s.i.toNat + q ≤ 0xFFF ∧ ∀ c < 8, spriteBit s q c = true → spritePixel s x y q c ≤ 2047) →
    (0xFFF < s.i.toNat + r → ∃ t, exec (.drw x y n) s = .next t ∧ Raised s 5 (encode (.drw x y n)) t) ∧
    (s.i.toNat + r ≤ 0xFFF → (∃ c < 8, spriteBit s r c = true ∧ 2047 < spritePixel s x y r c) →
      ∃ t, exec (.drw x y n) s = .next t ∧ Raised s 6 (encode (.drw x y n)) t)

/-- R192: the same sprite drawn twice at the same place restores the display. The collision flag of the second draw is
an inference the spec marks as derived: 1 exactly when some set bit's pixel was 0 at first. -/
def Obligations.DrawTwiceRestoresDisplay : Prop :=
  ∀ x y n s, x ≠ vF → y ≠ vF → SpriteFits s x y n →
    ∃ t u, exec (.drw x y n) s = .next t ∧ exec (.drw x y n) t = .next u ∧ u.disp = s.disp ∧ u.dirty = true ∧
      ((∃ r < n.toNat, ∃ c < 8, spriteBit s r c = true ∧ Display.pixel s.disp (spritePixel s x y r c) = false) →
        u.getV vF = 1) ∧
      ((¬ ∃ r < n.toNat, ∃ c < 8, spriteBit s r c = true ∧
        Display.pixel s.disp (spritePixel s x y r c) = false) → u.getV vF = 0)

/-! ### Keys and timers -/

/-- R210, R211: skip if the key Vx names is pressed, skip if it is not, for a key 0 to 15. -/
def Obligations.SkipOnKey : Prop :=
  ∀ x s, (s.getV x).toNat ≤ 15 →
    (∃ t, exec (.skp x) s = .next t ∧
      t.pc = (if keyAt s (s.getV x).toNat = true then s.pc + 4 else s.pc + 2) ∧ Frame [] [] s t) ∧
    (∃ t, exec (.sknp x) s = .next t ∧
      t.pc = (if keyAt s (s.getV x).toNat = true then s.pc + 2 else s.pc + 4) ∧ Frame [] [] s t)

/-- R210, R211 (decisions D7, D12, D13): with Vx > 15, KeyIndexOutOfRange (7). -/
def Obligations.KeyIndexOutOfRangeFaults : Prop :=
  ∀ x s, 15 < (s.getV x).toNat →
    (∃ t, exec (.skp x) s = .next t ∧ Raised s 7 (encode (.skp x)) t) ∧
    (∃ t, exec (.sknp x) s = .next t ∧ Raised s 7 (encode (.sknp x)) t)

/-- R212, R214, R215: Vx <- DT; DT <- Vx; ST <- Vx. Which opcode does which is the spec's decision D20. -/
def Obligations.TimerTransfers : Prop :=
  ∀ x s,
    (∃ t, exec (.ldVxDt x) s = .next t ∧ t.getV x = s.dt ∧ t.pc = s.pc + 2 ∧ Frame [x] [] s t) ∧
    (∃ t, exec (.ldDtVx x) s = .next t ∧ t.dt = s.getV x ∧ t.pc = s.pc + 2 ∧ Frame [] [.delay] s t) ∧
    (∃ t, exec (.ldStVx x) s = .next t ∧ t.st = s.getV x ∧ t.pc = s.pc + 2 ∧ Frame [] [.sound] s t)

/-- R213: Fx0A enters AwaitingKey(x), and neither PC nor Vx changes; key-up events leave the wait, and the next key-down
event writes its index to Vx, advances PC and ends it, whether or not the key was held. -/
def Obligations.KeyWaitHoldsUntilKeyDown : Prop :=
  ∀ x s, s.halted = false → ∃ t, exec (.ldVxK x) s = .next t ∧ t.wait = some x ∧ t.pc = s.pc ∧ Frame [] [.wait] s t ∧
    ∀ k < 16,
      (∃ u, hostCall (.keyUp k) t = .next u ∧ u.wait = some x ∧ u.pc = s.pc) ∧
      (∃ u, hostCall (.keyDown k) t = .next u ∧ (u.getV x).toNat = k ∧ u.pc = s.pc + 2 ∧ u.wait = none)

/-! ### The timing gate and the host's transactions -/

/-- R241 (D14, D23): a tick while halted does nothing; the first tick after reset only takes the time. -/
def Obligations.FirstTickOnlyInitialises : Prop :=
  ∀ now s,
    (s.halted = true → hostCall (.tick now) s = .next s) ∧
    (s.halted = false → s.started = false → ∃ t, hostCall (.tick now) s = .next t ∧ t.started = true ∧
      t.lastInstrTime = now ∧ t.lastTimerTime = now ∧ t.pc = s.pc ∧ Frame [] [.gate] s t)

/-- R242, R243, R244: the instruction gate fires when strictly more than its gap has passed and no key wait holds, at
most once a tick; the timer gate follows it, on the same `now`, and fires in a key wait too. -/
def Obligations.TickRunsGatesInOrder : Prop :=
  (∀ now s, s.halted = false → s.started = true → s.lastInstrTime.toNat ≤ now.toNat →
    s.lastTimerTime.toNat ≤ now.toNat →
    now.toNat - s.lastInstrTime.toNat ≤ s.params.instrGapMs ∨ s.wait ≠ none →
      ∃ u, hostCall (.tick now) s = .next u ∧ TimersAfter now s u ∧ u.lastInstrTime = s.lastInstrTime ∧
        u.started = true ∧ u.pc = s.pc ∧ Frame [] [.delay, .sound, .gate] s u) ∧
  (∀ now s t, GateOpens now s → cycle s = .next t → t.halted = false →
    ∃ u, hostCall (.tick now) s = .next u ∧ TimersAfter now t u ∧ u.lastInstrTime = now ∧ u.started = true ∧
      u.pc = t.pc ∧ Frame [] [.delay, .sound, .gate] t u)

/-- R234 (decision D35): a fault in a tick's instruction ends the tick: no timer falls, and the gate's times stay. -/
def Obligations.FaultEndsTick : Prop :=
  ∀ now s t, GateOpens now s → cycle s = .next t → t.halted = true →
    hostCall (.tick now) s = .next t ∧ t.dt = s.dt ∧ t.st = s.st ∧ Part.Same s t .gate

/-- R240 (decisions D2, D25): a tick below a gate time and a key index above 15 break the host's contract and have no
transition. -/
def Obligations.BrokenHostContractRefused : Prop :=
  (∀ now s, s.halted = false → s.started = true →
    (now.toNat < s.lastInstrTime.toNat ∨ now.toNat < s.lastTimerTime.toNat) →
    hostCall (.tick now) s = .refused .hostTimeBackward) ∧
  (∀ k s, 15 < k → hostCall (.keyDown k) s = .refused .hostKeyIndex ∧
    hostCall (.keyUp k) s = .refused .hostKeyIndex)

/-- R245 (decision D24), R233: `keyDown(k)` sets Key[k] always; in AwaitingKey(x), not halted, it writes k to Vx, advances
PC and ends the wait. -/
def Obligations.KeyDownSetsKeyAndEndsWait : Prop :=
  ∀ k s, k ≤ 15 → ∃ t, hostCall (.keyDown k) s = .next t ∧
    (∀ j < 16, keyAt t j = if j = k then true else keyAt s j) ∧
    (s.wait = none ∨ s.halted = true → t.pc = s.pc ∧ Frame [] [.keys] s t) ∧
    (∀ x, s.wait = some x → s.halted = false →
      (t.getV x).toNat = k ∧ t.pc = s.pc + 2 ∧ t.wait = none ∧ Frame [x] [.keys, .wait] s t)

/-- R246: `keyUp(k)` clears Key[k] and nothing else changes. -/
def Obligations.KeyUpOnlyClearsKey : Prop :=
  ∀ k s, k ≤ 15 → ∃ t, hostCall (.keyUp k) s = .next t ∧
    (∀ j < 16, keyAt t j = if j = k then false else keyAt s j) ∧ t.pc = s.pc ∧ Frame [] [.keys] s t

/-- R247: `clearDirty()` clears Dirty and nothing else changes. -/
def Obligations.ClearDirtyOnlyClearsDirty : Prop :=
  ∀ s, ∃ t, hostCall .clearDirty s = .next t ∧ t.dirty = false ∧ t.pc = s.pc ∧ Frame [] [.dirty] s t

/-- R282: a program over 3584 bytes fails and changes nothing; any other resets the machine (decisions as for the reset
state) and stands at 0x200, the rest of memory as reset leaves it. -/
def Obligations.LoadProgramResetsAndCopies : Prop :=
  ∀ (bytes : List Byte) (s : State),
    (3584 < bytes.length → hostLoad bytes s = (.romTooLarge, s) ∧ hostCall (.loadProgram bytes) s = .next s) ∧
    (bytes.length ≤ 3584 → (hostLoad bytes s).1 = .ok ∧
      ∃ t, hostCall (.loadProgram bytes) s = .next t ∧ ResetButMemory t ∧ t.params = s.params ∧
        (∀ j b, bytes[j]? = some b → t.readByte (0x200 + j) = b) ∧
        (∀ a, a < 0x200 ∨ 0x200 + bytes.length ≤ a → ResetByteIs t a))

/-- R233, R234 (decision D14): of a halted machine, `reset` and a `loadProgram` that succeeds change the state; every
other transaction leaves all but the keys and Dirty as they were, and the machine halted. -/
def Obligations.HaltedUntilResetOrLoad : Prop :=
  ∀ c s t, s.halted = true → hostCall c s = .next t →
    c = .reset ∨ (∃ bytes, c = .loadProgram bytes ∧ bytes.length ≤ 3584) ∨
    (Frame [] [.keys, .dirty] s t ∧ t.pc = s.pc ∧ t.halted = true)
end

