-- ==== Sys2Proof/Laws/Decode.lean ====
section
/-! SUPPORT. The fields of an encoded word, the opcode map's rows, and the bytes of a word. -/

namespace Sys2Proof

/-! ### The fields of each format (R71, R72) -/

@[simp] theorem fieldOp_formatA (op : Nibble) (nnn : Addr12) : fieldOp (formatA op nnn) = op := by
  ext i hi
  simp only [fieldOp, formatA, BitVec.getElem_extractLsb', BitVec.getLsbD_append]
  rw [if_neg (by omega)]
  simp [hi]

@[simp] theorem fieldNnn_formatA (op : Nibble) (nnn : Addr12) : fieldNnn (formatA op nnn) = nnn := by
  ext i hi
  simp only [fieldNnn, formatA, BitVec.getElem_extractLsb', BitVec.getLsbD_append]
  rw [if_pos (by omega)]
  simp [hi]

@[simp] theorem fieldOp_formatXK (op : Nibble) (x : RegIdx) (kk : Byte) : fieldOp (formatXK op x kk) = op := by
  ext i hi
  simp only [fieldOp, formatXK, BitVec.getElem_extractLsb', BitVec.getLsbD_append]
  rw [if_neg (by omega), if_neg (by omega), show 12 + i - 8 - 4 = i by omega]
  simp [hi]

@[simp] theorem fieldX_formatXK (op : Nibble) (x : RegIdx) (kk : Byte) : fieldX (formatXK op x kk) = x := by
  ext i hi
  simp only [fieldX, formatXK, BitVec.getElem_extractLsb', BitVec.getLsbD_append]
  rw [if_neg (by omega), if_pos (by omega), show 8 + i - 8 = i by omega]
  simp [hi]

@[simp] theorem fieldKk_formatXK (op : Nibble) (x : RegIdx) (kk : Byte) : fieldKk (formatXK op x kk) = kk := by
  ext i hi
  simp only [fieldKk, formatXK, BitVec.getElem_extractLsb', BitVec.getLsbD_append]
  rw [if_pos (by omega)]
  simp [hi]

@[simp] theorem fieldOp_formatXY (op : Nibble) (x y : RegIdx) (f : Nibble) : fieldOp (formatXY op x y f) = op := by
  ext i hi
  simp only [fieldOp, formatXY, BitVec.getElem_extractLsb', BitVec.getLsbD_append]
  rw [if_neg (by omega), if_neg (by omega), if_neg (by omega), show 12 + i - 4 - 4 - 4 = i by omega]
  simp [hi]

@[simp] theorem fieldX_formatXY (op : Nibble) (x y : RegIdx) (f : Nibble) : fieldX (formatXY op x y f) = x := by
  ext i hi
  simp only [fieldX, formatXY, BitVec.getElem_extractLsb', BitVec.getLsbD_append]
  rw [if_neg (by omega), if_neg (by omega), if_pos (by omega), show 8 + i - 4 - 4 = i by omega]
  simp [hi]

@[simp] theorem fieldY_formatXY (op : Nibble) (x y : RegIdx) (f : Nibble) : fieldY (formatXY op x y f) = y := by
  ext i hi
  simp only [fieldY, formatXY, BitVec.getElem_extractLsb', BitVec.getLsbD_append]
  rw [if_neg (by omega), if_pos (by omega), show 4 + i - 4 = i by omega]
  simp [hi]

@[simp] theorem fieldN_formatXY (op : Nibble) (x y : RegIdx) (f : Nibble) : fieldN (formatXY op x y f) = f := by
  ext i hi
  simp only [fieldN, formatXY, BitVec.getElem_extractLsb', BitVec.getLsbD_append]
  rw [if_pos (by omega)]
  simp [hi]

/-! ### A word is the sum of its fields (R71) -/

theorem formatA_fields (w : Word) : formatA (fieldOp w) (fieldNnn w) = w := by
  ext i hi
  simp only [formatA, fieldOp, fieldNnn, ← BitVec.getLsbD_eq_getElem, BitVec.getLsbD_append,
    BitVec.getLsbD_extractLsb']
  split
  · simp_all
  · rw [show 12 + (i - 12) = i by omega]
    simp; omega

theorem formatXK_fields (w : Word) : formatXK (fieldOp w) (fieldX w) (fieldKk w) = w := by
  ext i hi
  simp only [formatXK, fieldOp, fieldX, fieldKk, ← BitVec.getLsbD_eq_getElem, BitVec.getLsbD_append,
    BitVec.getLsbD_extractLsb']
  split
  · simp_all
  · split
    · rw [show 8 + (i - 8) = i by omega]
      simp; omega
    · rw [show 12 + (i - 8 - 4) = i by omega]
      simp; omega

theorem formatXY_fields (w : Word) : formatXY (fieldOp w) (fieldX w) (fieldY w) (fieldN w) = w := by
  ext i hi
  simp only [formatXY, fieldOp, fieldX, fieldY, fieldN, ← BitVec.getLsbD_eq_getElem, BitVec.getLsbD_append,
    BitVec.getLsbD_extractLsb']
  split
  · simp_all
  · split
    · rw [show 4 + (i - 4) = i by omega]
      simp; omega
    · split
      · rw [show 8 + (i - 4 - 4) = i by omega]
        simp; omega
      · rw [show 12 + (i - 4 - 4 - 4) = i by omega]
        simp; omega

/-! ### The fields as numbers (R71) -/

theorem fieldOp_toNat (w : Word) : (fieldOp w).toNat = w.toNat / 0x1000 := by
  simp [fieldOp, BitVec.extractLsb'_toNat, Nat.shiftRight_eq_div_pow]
  omega

theorem fieldN_toNat (w : Word) : (fieldN w).toNat = w.toNat % 0x10 := by
  simp [fieldN, BitVec.extractLsb'_toNat]

theorem fieldKk_toNat (w : Word) : (fieldKk w).toNat = w.toNat % 0x100 := by
  simp [fieldKk, BitVec.extractLsb'_toNat]

/-- The bytes of a word in memory order read back as the word (R53). -/
theorem wordOfBytes_bytesOfWord (w : Word) : wordOfBytes (w.extractLsb' 8 8) (w.extractLsb' 0 8) = w := by
  ext i hi
  simp only [wordOfBytes, ← BitVec.getLsbD_eq_getElem, BitVec.getLsbD_append, BitVec.getLsbD_extractLsb']
  split
  · simp_all
  · rw [show 8 + (i - 8) = i by omega]
    simp; omega

/-! ### The opcode map (R74) -/

/-- The map has 34 rows. -/
theorem opcodeRows_length : opcodeRows.length = 34 := rfl

/-- Two rows that disagree on a bit both of them fix have no word in common. -/
def OpcodeRow.clash (r q : OpcodeRow) : Bool := (r.pattern &&& (r.mask &&& q.mask)) != (q.pattern &&& (r.mask &&& q.mask))

theorem OpcodeRow.fits_of_clash {r q : OpcodeRow} (h : r.clash q = true) {w : Word} (hr : r.fits w = true) :
    q.fits w = false := by
  simp only [OpcodeRow.clash, OpcodeRow.fits, bne_iff_ne, beq_iff_eq, beq_eq_false_iff_ne, ne_eq] at *
  rintro hq
  refine h ?_
  rw [← hr, ← hq]
  ext i
  simp only [BitVec.getElem_and]
  cases w[i] <;> cases r.mask[i] <;> cases q.mask[i] <;> rfl

/-- The rows are pairwise disjoint: each two of them disagree on a bit both fix (R74). -/
theorem opcodeRows_disjoint : opcodeRows.Pairwise (fun r q => r.clash q = true) := by decide +kernel

end Sys2Proof
end

