-- ==== Sys2Proof/Laws/State.lean ====
section
/-! SUPPORT. One lemma per field per update of the state, so that no proof unfolds a record update; and how a register
and a byte of memory read after each update. -/

namespace Sys2Proof.Machine

/-! ### setV -/

@[simp] theorem setV_i (s : State) (x : RegIdx) (b : Byte) : (s.setV x b).i = s.i := rfl
@[simp] theorem setV_pc (s : State) (x : RegIdx) (b : Byte) : (s.setV x b).pc = s.pc := rfl
@[simp] theorem setV_sp (s : State) (x : RegIdx) (b : Byte) : (s.setV x b).sp = s.sp := rfl
@[simp] theorem setV_stack (s : State) (x : RegIdx) (b : Byte) : (s.setV x b).stack = s.stack := rfl
@[simp] theorem setV_dt (s : State) (x : RegIdx) (b : Byte) : (s.setV x b).dt = s.dt := rfl
@[simp] theorem setV_st (s : State) (x : RegIdx) (b : Byte) : (s.setV x b).st = s.st := rfl
@[simp] theorem setV_wait (s : State) (x : RegIdx) (b : Byte) : (s.setV x b).wait = s.wait := rfl
@[simp] theorem setV_key (s : State) (x : RegIdx) (b : Byte) : (s.setV x b).key = s.key := rfl
@[simp] theorem setV_disp (s : State) (x : RegIdx) (b : Byte) : (s.setV x b).disp = s.disp := rfl
@[simp] theorem setV_dirty (s : State) (x : RegIdx) (b : Byte) : (s.setV x b).dirty = s.dirty := rfl
@[simp] theorem setV_started (s : State) (x : RegIdx) (b : Byte) : (s.setV x b).started = s.started := rfl
@[simp] theorem setV_lastInstrTime (s : State) (x : RegIdx) (b : Byte) : (s.setV x b).lastInstrTime = s.lastInstrTime := rfl
@[simp] theorem setV_lastTimerTime (s : State) (x : RegIdx) (b : Byte) : (s.setV x b).lastTimerTime = s.lastTimerTime := rfl
@[simp] theorem setV_halted (s : State) (x : RegIdx) (b : Byte) : (s.setV x b).halted = s.halted := rfl
@[simp] theorem setV_faultCode (s : State) (x : RegIdx) (b : Byte) : (s.setV x b).faultCode = s.faultCode := rfl
@[simp] theorem setV_faultWord (s : State) (x : RegIdx) (b : Byte) : (s.setV x b).faultWord = s.faultWord := rfl
@[simp] theorem setV_faultPc (s : State) (x : RegIdx) (b : Byte) : (s.setV x b).faultPc = s.faultPc := rfl
@[simp] theorem setV_mem (s : State) (x : RegIdx) (b : Byte) : (s.setV x b).mem = s.mem := rfl
@[simp] theorem setV_params (s : State) (x : RegIdx) (b : Byte) : (s.setV x b).params = s.params := rfl
@[simp] theorem setV_rngDraws (s : State) (x : RegIdx) (b : Byte) : (s.setV x b).rngDraws = s.rngDraws := rfl
@[simp] theorem setV_hostCalls (s : State) (x : RegIdx) (b : Byte) : (s.setV x b).hostCalls = s.hostCalls := rfl
@[simp] theorem setV_readByte (s : State) (x : RegIdx) (b : Byte) (addr : Nat) : (s.setV x b).readByte addr = s.readByte addr := rfl

/-! ### writeByte -/

@[simp] theorem writeByte_v (s : State) (a : Nat) (b : Byte) : (s.writeByte a b).v = s.v := rfl
@[simp] theorem writeByte_i (s : State) (a : Nat) (b : Byte) : (s.writeByte a b).i = s.i := rfl
@[simp] theorem writeByte_pc (s : State) (a : Nat) (b : Byte) : (s.writeByte a b).pc = s.pc := rfl
@[simp] theorem writeByte_sp (s : State) (a : Nat) (b : Byte) : (s.writeByte a b).sp = s.sp := rfl
@[simp] theorem writeByte_stack (s : State) (a : Nat) (b : Byte) : (s.writeByte a b).stack = s.stack := rfl
@[simp] theorem writeByte_dt (s : State) (a : Nat) (b : Byte) : (s.writeByte a b).dt = s.dt := rfl
@[simp] theorem writeByte_st (s : State) (a : Nat) (b : Byte) : (s.writeByte a b).st = s.st := rfl
@[simp] theorem writeByte_wait (s : State) (a : Nat) (b : Byte) : (s.writeByte a b).wait = s.wait := rfl
@[simp] theorem writeByte_key (s : State) (a : Nat) (b : Byte) : (s.writeByte a b).key = s.key := rfl
@[simp] theorem writeByte_disp (s : State) (a : Nat) (b : Byte) : (s.writeByte a b).disp = s.disp := rfl
@[simp] theorem writeByte_dirty (s : State) (a : Nat) (b : Byte) : (s.writeByte a b).dirty = s.dirty := rfl
@[simp] theorem writeByte_started (s : State) (a : Nat) (b : Byte) : (s.writeByte a b).started = s.started := rfl
@[simp] theorem writeByte_lastInstrTime (s : State) (a : Nat) (b : Byte) : (s.writeByte a b).lastInstrTime = s.lastInstrTime := rfl
@[simp] theorem writeByte_lastTimerTime (s : State) (a : Nat) (b : Byte) : (s.writeByte a b).lastTimerTime = s.lastTimerTime := rfl
@[simp] theorem writeByte_halted (s : State) (a : Nat) (b : Byte) : (s.writeByte a b).halted = s.halted := rfl
@[simp] theorem writeByte_faultCode (s : State) (a : Nat) (b : Byte) : (s.writeByte a b).faultCode = s.faultCode := rfl
@[simp] theorem writeByte_faultWord (s : State) (a : Nat) (b : Byte) : (s.writeByte a b).faultWord = s.faultWord := rfl
@[simp] theorem writeByte_faultPc (s : State) (a : Nat) (b : Byte) : (s.writeByte a b).faultPc = s.faultPc := rfl
@[simp] theorem writeByte_params (s : State) (a : Nat) (b : Byte) : (s.writeByte a b).params = s.params := rfl
@[simp] theorem writeByte_rngDraws (s : State) (a : Nat) (b : Byte) : (s.writeByte a b).rngDraws = s.rngDraws := rfl
@[simp] theorem writeByte_hostCalls (s : State) (a : Nat) (b : Byte) : (s.writeByte a b).hostCalls = s.hostCalls := rfl
@[simp] theorem writeByte_getV (s : State) (a : Nat) (b : Byte) (r : RegIdx) : (s.writeByte a b).getV r = s.getV r := rfl

/-! ### next -/

@[simp] theorem next_v (s : State) : s.next.v = s.v := rfl
@[simp] theorem next_i (s : State) : s.next.i = s.i := rfl
@[simp] theorem next_sp (s : State) : s.next.sp = s.sp := rfl
@[simp] theorem next_stack (s : State) : s.next.stack = s.stack := rfl
@[simp] theorem next_dt (s : State) : s.next.dt = s.dt := rfl
@[simp] theorem next_st (s : State) : s.next.st = s.st := rfl
@[simp] theorem next_wait (s : State) : s.next.wait = s.wait := rfl
@[simp] theorem next_key (s : State) : s.next.key = s.key := rfl
@[simp] theorem next_disp (s : State) : s.next.disp = s.disp := rfl
@[simp] theorem next_dirty (s : State) : s.next.dirty = s.dirty := rfl
@[simp] theorem next_started (s : State) : s.next.started = s.started := rfl
@[simp] theorem next_lastInstrTime (s : State) : s.next.lastInstrTime = s.lastInstrTime := rfl
@[simp] theorem next_lastTimerTime (s : State) : s.next.lastTimerTime = s.lastTimerTime := rfl
@[simp] theorem next_halted (s : State) : s.next.halted = s.halted := rfl
@[simp] theorem next_faultCode (s : State) : s.next.faultCode = s.faultCode := rfl
@[simp] theorem next_faultWord (s : State) : s.next.faultWord = s.faultWord := rfl
@[simp] theorem next_faultPc (s : State) : s.next.faultPc = s.faultPc := rfl
@[simp] theorem next_mem (s : State) : s.next.mem = s.mem := rfl
@[simp] theorem next_params (s : State) : s.next.params = s.params := rfl
@[simp] theorem next_rngDraws (s : State) : s.next.rngDraws = s.rngDraws := rfl
@[simp] theorem next_hostCalls (s : State) : s.next.hostCalls = s.hostCalls := rfl
@[simp] theorem next_getV (s : State) (r : RegIdx) : s.next.getV r = s.getV r := rfl
@[simp] theorem next_readByte (s : State) (addr : Nat) : s.next.readByte addr = s.readByte addr := rfl

/-! ### jumpTo -/

@[simp] theorem jumpTo_v (s : State) (a : Word) : (s.jumpTo a).v = s.v := rfl
@[simp] theorem jumpTo_i (s : State) (a : Word) : (s.jumpTo a).i = s.i := rfl
@[simp] theorem jumpTo_sp (s : State) (a : Word) : (s.jumpTo a).sp = s.sp := rfl
@[simp] theorem jumpTo_stack (s : State) (a : Word) : (s.jumpTo a).stack = s.stack := rfl
@[simp] theorem jumpTo_dt (s : State) (a : Word) : (s.jumpTo a).dt = s.dt := rfl
@[simp] theorem jumpTo_st (s : State) (a : Word) : (s.jumpTo a).st = s.st := rfl
@[simp] theorem jumpTo_wait (s : State) (a : Word) : (s.jumpTo a).wait = s.wait := rfl
@[simp] theorem jumpTo_key (s : State) (a : Word) : (s.jumpTo a).key = s.key := rfl
@[simp] theorem jumpTo_disp (s : State) (a : Word) : (s.jumpTo a).disp = s.disp := rfl
@[simp] theorem jumpTo_dirty (s : State) (a : Word) : (s.jumpTo a).dirty = s.dirty := rfl
@[simp] theorem jumpTo_started (s : State) (a : Word) : (s.jumpTo a).started = s.started := rfl
@[simp] theorem jumpTo_lastInstrTime (s : State) (a : Word) : (s.jumpTo a).lastInstrTime = s.lastInstrTime := rfl
@[simp] theorem jumpTo_lastTimerTime (s : State) (a : Word) : (s.jumpTo a).lastTimerTime = s.lastTimerTime := rfl
@[simp] theorem jumpTo_halted (s : State) (a : Word) : (s.jumpTo a).halted = s.halted := rfl
@[simp] theorem jumpTo_faultCode (s : State) (a : Word) : (s.jumpTo a).faultCode = s.faultCode := rfl
@[simp] theorem jumpTo_faultWord (s : State) (a : Word) : (s.jumpTo a).faultWord = s.faultWord := rfl
@[simp] theorem jumpTo_faultPc (s : State) (a : Word) : (s.jumpTo a).faultPc = s.faultPc := rfl
@[simp] theorem jumpTo_mem (s : State) (a : Word) : (s.jumpTo a).mem = s.mem := rfl
@[simp] theorem jumpTo_params (s : State) (a : Word) : (s.jumpTo a).params = s.params := rfl
@[simp] theorem jumpTo_rngDraws (s : State) (a : Word) : (s.jumpTo a).rngDraws = s.rngDraws := rfl
@[simp] theorem jumpTo_hostCalls (s : State) (a : Word) : (s.jumpTo a).hostCalls = s.hostCalls := rfl
@[simp] theorem jumpTo_getV (s : State) (a : Word) (r : RegIdx) : (s.jumpTo a).getV r = s.getV r := rfl
@[simp] theorem jumpTo_readByte (s : State) (a : Word) (addr : Nat) : (s.jumpTo a).readByte addr = s.readByte addr := rfl

/-! ### skipIf -/

@[simp] theorem skipIf_v (s : State) (c : Bool) : (s.skipIf c).v = s.v := by cases c <;> rfl
@[simp] theorem skipIf_i (s : State) (c : Bool) : (s.skipIf c).i = s.i := by cases c <;> rfl
@[simp] theorem skipIf_sp (s : State) (c : Bool) : (s.skipIf c).sp = s.sp := by cases c <;> rfl
@[simp] theorem skipIf_stack (s : State) (c : Bool) : (s.skipIf c).stack = s.stack := by cases c <;> rfl
@[simp] theorem skipIf_dt (s : State) (c : Bool) : (s.skipIf c).dt = s.dt := by cases c <;> rfl
@[simp] theorem skipIf_st (s : State) (c : Bool) : (s.skipIf c).st = s.st := by cases c <;> rfl
@[simp] theorem skipIf_wait (s : State) (c : Bool) : (s.skipIf c).wait = s.wait := by cases c <;> rfl
@[simp] theorem skipIf_key (s : State) (c : Bool) : (s.skipIf c).key = s.key := by cases c <;> rfl
@[simp] theorem skipIf_disp (s : State) (c : Bool) : (s.skipIf c).disp = s.disp := by cases c <;> rfl
@[simp] theorem skipIf_dirty (s : State) (c : Bool) : (s.skipIf c).dirty = s.dirty := by cases c <;> rfl
@[simp] theorem skipIf_started (s : State) (c : Bool) : (s.skipIf c).started = s.started := by cases c <;> rfl
@[simp] theorem skipIf_lastInstrTime (s : State) (c : Bool) : (s.skipIf c).lastInstrTime = s.lastInstrTime := by cases c <;> rfl
@[simp] theorem skipIf_lastTimerTime (s : State) (c : Bool) : (s.skipIf c).lastTimerTime = s.lastTimerTime := by cases c <;> rfl
@[simp] theorem skipIf_halted (s : State) (c : Bool) : (s.skipIf c).halted = s.halted := by cases c <;> rfl
@[simp] theorem skipIf_faultCode (s : State) (c : Bool) : (s.skipIf c).faultCode = s.faultCode := by cases c <;> rfl
@[simp] theorem skipIf_faultWord (s : State) (c : Bool) : (s.skipIf c).faultWord = s.faultWord := by cases c <;> rfl
@[simp] theorem skipIf_faultPc (s : State) (c : Bool) : (s.skipIf c).faultPc = s.faultPc := by cases c <;> rfl
@[simp] theorem skipIf_mem (s : State) (c : Bool) : (s.skipIf c).mem = s.mem := by cases c <;> rfl
@[simp] theorem skipIf_params (s : State) (c : Bool) : (s.skipIf c).params = s.params := by cases c <;> rfl
@[simp] theorem skipIf_rngDraws (s : State) (c : Bool) : (s.skipIf c).rngDraws = s.rngDraws := by cases c <;> rfl
@[simp] theorem skipIf_hostCalls (s : State) (c : Bool) : (s.skipIf c).hostCalls = s.hostCalls := by cases c <;> rfl
@[simp] theorem skipIf_getV (s : State) (c : Bool) (r : RegIdx) : (s.skipIf c).getV r = s.getV r := by cases c <;> rfl
@[simp] theorem skipIf_readByte (s : State) (c : Bool) (addr : Nat) : (s.skipIf c).readByte addr = s.readByte addr := by cases c <;> rfl

/-! ### setFlagThen -/

@[simp] theorem setFlagThen_i (s : State) (f : Bool) (x : RegIdx) (r : Byte) : (s.setFlagThen f x r).i = s.i := rfl
@[simp] theorem setFlagThen_pc (s : State) (f : Bool) (x : RegIdx) (r : Byte) : (s.setFlagThen f x r).pc = s.pc := rfl
@[simp] theorem setFlagThen_sp (s : State) (f : Bool) (x : RegIdx) (r : Byte) : (s.setFlagThen f x r).sp = s.sp := rfl
@[simp] theorem setFlagThen_stack (s : State) (f : Bool) (x : RegIdx) (r : Byte) : (s.setFlagThen f x r).stack = s.stack := rfl
@[simp] theorem setFlagThen_dt (s : State) (f : Bool) (x : RegIdx) (r : Byte) : (s.setFlagThen f x r).dt = s.dt := rfl
@[simp] theorem setFlagThen_st (s : State) (f : Bool) (x : RegIdx) (r : Byte) : (s.setFlagThen f x r).st = s.st := rfl
@[simp] theorem setFlagThen_wait (s : State) (f : Bool) (x : RegIdx) (r : Byte) : (s.setFlagThen f x r).wait = s.wait := rfl
@[simp] theorem setFlagThen_key (s : State) (f : Bool) (x : RegIdx) (r : Byte) : (s.setFlagThen f x r).key = s.key := rfl
@[simp] theorem setFlagThen_disp (s : State) (f : Bool) (x : RegIdx) (r : Byte) : (s.setFlagThen f x r).disp = s.disp := rfl
@[simp] theorem setFlagThen_dirty (s : State) (f : Bool) (x : RegIdx) (r : Byte) : (s.setFlagThen f x r).dirty = s.dirty := rfl
@[simp] theorem setFlagThen_started (s : State) (f : Bool) (x : RegIdx) (r : Byte) : (s.setFlagThen f x r).started = s.started := rfl
@[simp] theorem setFlagThen_lastInstrTime (s : State) (f : Bool) (x : RegIdx) (r : Byte) : (s.setFlagThen f x r).lastInstrTime = s.lastInstrTime := rfl
@[simp] theorem setFlagThen_lastTimerTime (s : State) (f : Bool) (x : RegIdx) (r : Byte) : (s.setFlagThen f x r).lastTimerTime = s.lastTimerTime := rfl
@[simp] theorem setFlagThen_halted (s : State) (f : Bool) (x : RegIdx) (r : Byte) : (s.setFlagThen f x r).halted = s.halted := rfl
@[simp] theorem setFlagThen_faultCode (s : State) (f : Bool) (x : RegIdx) (r : Byte) : (s.setFlagThen f x r).faultCode = s.faultCode := rfl
@[simp] theorem setFlagThen_faultWord (s : State) (f : Bool) (x : RegIdx) (r : Byte) : (s.setFlagThen f x r).faultWord = s.faultWord := rfl
@[simp] theorem setFlagThen_faultPc (s : State) (f : Bool) (x : RegIdx) (r : Byte) : (s.setFlagThen f x r).faultPc = s.faultPc := rfl
@[simp] theorem setFlagThen_mem (s : State) (f : Bool) (x : RegIdx) (r : Byte) : (s.setFlagThen f x r).mem = s.mem := rfl
@[simp] theorem setFlagThen_params (s : State) (f : Bool) (x : RegIdx) (r : Byte) : (s.setFlagThen f x r).params = s.params := rfl
@[simp] theorem setFlagThen_rngDraws (s : State) (f : Bool) (x : RegIdx) (r : Byte) : (s.setFlagThen f x r).rngDraws = s.rngDraws := rfl
@[simp] theorem setFlagThen_hostCalls (s : State) (f : Bool) (x : RegIdx) (r : Byte) : (s.setFlagThen f x r).hostCalls = s.hostCalls := rfl
@[simp] theorem setFlagThen_readByte (s : State) (f : Bool) (x : RegIdx) (r : Byte) (addr : Nat) : (s.setFlagThen f x r).readByte addr = s.readByte addr := rfl

/-! ### raise -/

@[simp] theorem raise_v (s : State) (c : Cause) (w : Word) : (s.raise c w).v = s.v := rfl
@[simp] theorem raise_i (s : State) (c : Cause) (w : Word) : (s.raise c w).i = s.i := rfl
@[simp] theorem raise_pc (s : State) (c : Cause) (w : Word) : (s.raise c w).pc = s.pc := rfl
@[simp] theorem raise_sp (s : State) (c : Cause) (w : Word) : (s.raise c w).sp = s.sp := rfl
@[simp] theorem raise_stack (s : State) (c : Cause) (w : Word) : (s.raise c w).stack = s.stack := rfl
@[simp] theorem raise_dt (s : State) (c : Cause) (w : Word) : (s.raise c w).dt = s.dt := rfl
@[simp] theorem raise_st (s : State) (c : Cause) (w : Word) : (s.raise c w).st = s.st := rfl
@[simp] theorem raise_wait (s : State) (c : Cause) (w : Word) : (s.raise c w).wait = s.wait := rfl
@[simp] theorem raise_key (s : State) (c : Cause) (w : Word) : (s.raise c w).key = s.key := rfl
@[simp] theorem raise_disp (s : State) (c : Cause) (w : Word) : (s.raise c w).disp = s.disp := rfl
@[simp] theorem raise_dirty (s : State) (c : Cause) (w : Word) : (s.raise c w).dirty = s.dirty := rfl
@[simp] theorem raise_started (s : State) (c : Cause) (w : Word) : (s.raise c w).started = s.started := rfl
@[simp] theorem raise_lastInstrTime (s : State) (c : Cause) (w : Word) : (s.raise c w).lastInstrTime = s.lastInstrTime := rfl
@[simp] theorem raise_lastTimerTime (s : State) (c : Cause) (w : Word) : (s.raise c w).lastTimerTime = s.lastTimerTime := rfl
@[simp] theorem raise_mem (s : State) (c : Cause) (w : Word) : (s.raise c w).mem = s.mem := rfl
@[simp] theorem raise_params (s : State) (c : Cause) (w : Word) : (s.raise c w).params = s.params := rfl
@[simp] theorem raise_rngDraws (s : State) (c : Cause) (w : Word) : (s.raise c w).rngDraws = s.rngDraws := rfl
@[simp] theorem raise_hostCalls (s : State) (c : Cause) (w : Word) : (s.raise c w).hostCalls = s.hostCalls := rfl
@[simp] theorem raise_getV (s : State) (c : Cause) (w : Word) (r : RegIdx) : (s.raise c w).getV r = s.getV r := rfl
@[simp] theorem raise_readByte (s : State) (c : Cause) (w : Word) (addr : Nat) : (s.raise c w).readByte addr = s.readByte addr := rfl

/-! ### showCanvas -/

@[simp] theorem showCanvas_i (s : State) (d : Canvas) : (s.showCanvas d).i = s.i := rfl
@[simp] theorem showCanvas_sp (s : State) (d : Canvas) : (s.showCanvas d).sp = s.sp := rfl
@[simp] theorem showCanvas_stack (s : State) (d : Canvas) : (s.showCanvas d).stack = s.stack := rfl
@[simp] theorem showCanvas_dt (s : State) (d : Canvas) : (s.showCanvas d).dt = s.dt := rfl
@[simp] theorem showCanvas_st (s : State) (d : Canvas) : (s.showCanvas d).st = s.st := rfl
@[simp] theorem showCanvas_wait (s : State) (d : Canvas) : (s.showCanvas d).wait = s.wait := rfl
@[simp] theorem showCanvas_key (s : State) (d : Canvas) : (s.showCanvas d).key = s.key := rfl
@[simp] theorem showCanvas_started (s : State) (d : Canvas) : (s.showCanvas d).started = s.started := rfl
@[simp] theorem showCanvas_lastInstrTime (s : State) (d : Canvas) : (s.showCanvas d).lastInstrTime = s.lastInstrTime := rfl
@[simp] theorem showCanvas_lastTimerTime (s : State) (d : Canvas) : (s.showCanvas d).lastTimerTime = s.lastTimerTime := rfl
@[simp] theorem showCanvas_halted (s : State) (d : Canvas) : (s.showCanvas d).halted = s.halted := rfl
@[simp] theorem showCanvas_faultCode (s : State) (d : Canvas) : (s.showCanvas d).faultCode = s.faultCode := rfl
@[simp] theorem showCanvas_faultWord (s : State) (d : Canvas) : (s.showCanvas d).faultWord = s.faultWord := rfl
@[simp] theorem showCanvas_faultPc (s : State) (d : Canvas) : (s.showCanvas d).faultPc = s.faultPc := rfl
@[simp] theorem showCanvas_mem (s : State) (d : Canvas) : (s.showCanvas d).mem = s.mem := rfl
@[simp] theorem showCanvas_params (s : State) (d : Canvas) : (s.showCanvas d).params = s.params := rfl
@[simp] theorem showCanvas_rngDraws (s : State) (d : Canvas) : (s.showCanvas d).rngDraws = s.rngDraws := rfl
@[simp] theorem showCanvas_hostCalls (s : State) (d : Canvas) : (s.showCanvas d).hostCalls = s.hostCalls := rfl
@[simp] theorem showCanvas_readByte (s : State) (d : Canvas) (addr : Nat) : (s.showCanvas d).readByte addr = s.readByte addr := rfl

/-! ### The fields an update writes -/

@[simp] theorem next_pc (s : State) : s.next.pc = s.pc + 2 := rfl
@[simp] theorem jumpTo_pc (s : State) (a : Word) : (s.jumpTo a).pc = a := rfl
@[simp] theorem skipIf_pc (s : State) (c : Bool) : (s.skipIf c).pc = s.pc + (if c then 4 else 2) := by
  cases c <;> rfl
@[simp] theorem raise_halted (s : State) (c : Cause) (w : Word) : (s.raise c w).halted = true := rfl
@[simp] theorem raise_faultCode (s : State) (c : Cause) (w : Word) : (s.raise c w).faultCode = c.code := rfl
@[simp] theorem raise_faultWord (s : State) (c : Cause) (w : Word) :
    (s.raise c w).faultWord = if c = .fetchOutOfRange then 0 else w := rfl
@[simp] theorem raise_faultPc (s : State) (c : Cause) (w : Word) : (s.raise c w).faultPc = s.pc := rfl
@[simp] theorem showCanvas_pc (s : State) (d : Canvas) : (s.showCanvas d).pc = s.pc + 2 := rfl
@[simp] theorem showCanvas_disp (s : State) (d : Canvas) : (s.showCanvas d).disp = d.1 := rfl
@[simp] theorem showCanvas_dirty (s : State) (d : Canvas) : (s.showCanvas d).dirty = true := rfl

/-- A register reads what was last written to it, and no other register changes (R20). -/
@[simp] theorem getV_setV (s : State) (x y : RegIdx) (b : Byte) :
    (s.setV x b).getV y = if y = x then b else s.getV y := by
  simp only [State.getV, State.setV, Vector.getElem_set, BitVec.toNat_inj, eq_comm]

/-- A two-result instruction leaves its result in Vx, the flag in VF unless x = F, and the rest alone (R139). -/
@[simp] theorem getV_setFlagThen (s : State) (f : Bool) (x r : RegIdx) (b : Byte) :
    (s.setFlagThen f x b).getV r = if r = x then b else if r = vF then flagByte f else s.getV r := by
  simp [State.setFlagThen]

/-- A draw leaves the collision flag in VF (R191). -/
@[simp] theorem getV_showCanvas (s : State) (d : Canvas) (r : RegIdx) :
    (s.showCanvas d).getV r = if r = vF then flagByte d.2 else s.getV r :=
  getV_setV s vF r (flagByte d.2)

end Sys2Proof.Machine
end

