-- ==== Sys2Proof/Laws/Memory.lean ====
section
/-! SUPPORT. The laws of memory: a read after a write, the frame of a write, and that every memory operation keeps the
canonical form. -/

namespace Sys2Proof.Machine

/-- Every listed address is above `a`. -/
def Memory.above (a : Nat) (m : List Host.Cell) : Bool := m.all (fun c => decide (a < c.1))

theorem Memory.wf_cons (font : Vector Byte 80) (k : Nat) (b : Byte) (m : List Host.Cell) :
    Memory.wf font ((k, b) :: m) = true ↔
      k ≤ 0xFFF ∧ b ≠ resetByte font k ∧ Memory.above k m = true ∧ Memory.wf font m = true := by
  simp [Memory.wf, Memory.above, and_assoc]

theorem Memory.above_cons (a k : Nat) (b : Byte) (m : List Host.Cell) :
    Memory.above a ((k, b) :: m) = true ↔ a < k ∧ Memory.above a m = true := by
  simp [Memory.above]

theorem Memory.above_trans {a k : Nat} {m : List Host.Cell} (h : a < k) (hm : Memory.above k m = true) :
    Memory.above a m = true := by
  simp only [Memory.above, List.all_eq_true, decide_eq_true_eq] at *
  exact fun c hc => h.trans (hm c hc)

/-- An address below every listed one reads as reset leaves it. -/
theorem Memory.read_of_above {font : Vector Byte 80} {a : Nat} {m : List Host.Cell}
    (h : Memory.above a m = true) : Memory.read font m a = resetByte font a := by
  induction m with
  | nil => rfl
  | cons c m ih =>
    obtain ⟨k, b⟩ := c
    obtain ⟨hk, hm⟩ := (Memory.above_cons ..).mp h
    simp [Memory.read, hk.ne, ih hm]

/-- A read after a write: the byte written at its address, and what was there before at every other (R58). -/
theorem Memory.read_write {font : Vector Byte 80} {m : List Host.Cell} (h : Memory.wf font m = true)
    (a a' : Nat) (b : Byte) :
    Memory.read font (Memory.write font m a b) a' = if a' = a then b else Memory.read font m a' := by
  induction m with
  | nil =>
    by_cases hb : b = resetByte font a <;> by_cases ha : a' = a <;> simp [Memory.write, Memory.read, hb, ha]
  | cons c m ih =>
    obtain ⟨k, d⟩ := c
    obtain ⟨-, -, hk, hm⟩ := (Memory.wf_cons ..).mp h
    by_cases hlt : a < k
    · have hread : Memory.read font ((k, d) :: m) a = resetByte font a :=
        Memory.read_of_above ((Memory.above_cons ..).mpr ⟨hlt, Memory.above_trans hlt hk⟩)
      by_cases hb : b = resetByte font a
      · by_cases ha : a' = a
        · simp [Memory.write, hlt, hb, ha, hread]
        · simp [Memory.write, hlt, hb, ha]
      · simp [Memory.write, hlt, hb, Memory.read]
    · by_cases heq : a = k
      · subst heq
        by_cases hb : b = resetByte font a
        · by_cases ha : a' = a
          · simp [Memory.write, hb, ha, Memory.read_of_above hk]
          · simp [Memory.write, hb, ha, Memory.read]
        · by_cases ha : a' = a <;> simp [Memory.write, hb, ha, Memory.read]
      · by_cases hk' : a' = k
        · have : a' ≠ a := fun h => heq (h.symm.trans hk')
          simp [Memory.write, hlt, heq, Memory.read, hk', Ne.symm heq]
        · simp [Memory.write, hlt, heq, Memory.read, hk', ih hm]

theorem Memory.above_write {font : Vector Byte 80} {m : List Host.Cell} {j a : Nat} {b : Byte}
    (hj : j < a) (h : Memory.above j m = true) : Memory.above j (Memory.write font m a b) = true := by
  induction m with
  | nil => by_cases hb : b = resetByte font a <;> simp [Memory.write, Memory.above, hb, hj]
  | cons c m ih =>
    obtain ⟨k, d⟩ := c
    obtain ⟨hk, hm⟩ := (Memory.above_cons ..).mp h
    unfold Memory.write
    split_ifs <;> simp_all [Memory.above_cons]

/-- A write within the address space keeps the canonical form. -/
theorem Memory.write_wf {font : Vector Byte 80} {m : List Host.Cell} {a : Nat} (ha : a ≤ 0xFFF) (b : Byte)
    (h : Memory.wf font m = true) : Memory.wf font (Memory.write font m a b) = true := by
  induction m with
  | nil => by_cases hb : b = resetByte font a <;> simp [Memory.write, Memory.wf, hb, ha]
  | cons c m ih =>
    obtain ⟨k, d⟩ := c
    obtain ⟨hk, hd, hab, hm⟩ := (Memory.wf_cons ..).mp h
    unfold Memory.write
    split_ifs with h1 h2 h3 h4
    · exact h
    · exact (Memory.wf_cons ..).mpr ⟨ha, h2, (Memory.above_cons ..).mpr ⟨h1, Memory.above_trans h1 hab⟩, h⟩
    · exact hm
    · subst h3
      exact (Memory.wf_cons ..).mpr ⟨ha, h4, hab, hm⟩
    · exact (Memory.wf_cons ..).mpr ⟨hk, hd, Memory.above_write (by omega) hab, ih hm⟩

/-- The memory of the reset state is in canonical form. -/
theorem reset_mem_wf : Memory.wf State.reset.params.font State.reset.mem = true := rfl

/-- The machine's byte after a write to memory (R58, R62). -/
theorem readByte_writeByte {s : State} (h : Memory.wf s.params.font s.mem = true) (a a' : Nat) (b : Byte) :
    (s.writeByte a b).readByte a' = if a' = a then b else s.readByte a' :=
  Memory.read_write h a a' b

/-- A write within the address space keeps the machine's memory in canonical form. -/
theorem writeByte_wf {s : State} {a : Nat} (ha : a ≤ 0xFFF) (b : Byte) (h : Memory.wf s.params.font s.mem = true) :
    Memory.wf (s.writeByte a b).params.font (s.writeByte a b).mem = true :=
  Memory.write_wf ha b h

end Sys2Proof.Machine
end

