-- ==== Sys2Proof/Laws/Ops.lean ====
section
/-! SUPPORT. For each shared operation, what it can do: the memory transfers, the sprite, the key read and the end of an
instruction. Statements about instructions cite these and unfold no operation. -/

namespace Sys2Proof.Machine

/-! ### Bytes of memory -/

theorem memRead_ok {s : State} {a : Nat} (h : a ≤ 0xFFF) : s.memRead a = .ok (s.readByte a) := by
  simp [State.memRead, Nat.not_lt.mpr h]

theorem memRead_error {s : State} {a : Nat} (h : 0xFFF < a) : s.memRead a = .error .memoryOutOfRange := by
  simp only [State.memRead, if_pos h]

theorem memWrite_ok {s : State} {a : Nat} (b : Byte) (h : a ≤ 0xFFF) : s.memWrite a b = .ok (s.writeByte a b) := by
  simp [State.memWrite, Nat.not_lt.mpr h]

theorem memWrite_error {s : State} {a : Nat} (b : Byte) (h : 0xFFF < a) :
    s.memWrite a b = .error .memoryOutOfRange := by
  simp only [State.memWrite, if_pos h]

/-- A run of bytes inside memory is written, each at its address, and nothing else changes. -/
theorem memWriteAll_ok {s : State} {a : Nat} {bs : List Byte} (hwf : Memory.wf s.params.font s.mem = true)
    (h : a + bs.length ≤ 0x1000) :
    ∃ m, s.memWriteAll a bs = .ok { s with mem := m } ∧ Memory.wf s.params.font m = true ∧
      (∀ j, (hj : j < bs.length) → Memory.read s.params.font m (a + j) = bs[j]) ∧
      ∀ a', (a' < a ∨ a + bs.length ≤ a') → Memory.read s.params.font m a' = s.readByte a' := by
  induction bs generalizing s a with
  | nil => exact ⟨s.mem, rfl, hwf, fun j hj => absurd hj (Nat.not_lt_zero j), fun _ _ => rfl⟩
  | cons b bs ih =>
    simp only [List.length_cons] at h
    have ha : a ≤ 0xFFF := by omega
    obtain ⟨m, hm, hmwf, hin, hout⟩ := ih (s := s.writeByte a b) (a := a + 1) (writeByte_wf ha b hwf) (by omega)
    refine ⟨m, ?_, hmwf, ?_, ?_⟩
    · simp only [State.memWriteAll, memWrite_ok b ha]
      exact hm
    · intro j hj
      cases j with
      | zero =>
        have := hout a (Or.inl (Nat.lt_succ_self a))
        rw [readByte_writeByte hwf, if_pos rfl] at this
        simpa using this
      | succ j =>
        have := hin j (by simpa using hj)
        rw [show a + 1 + j = a + (j + 1) by omega] at this
        simpa using this
    · intro a' ha'
      simp only [List.length_cons] at ha'
      have := hout a' (by omega)
      rwa [readByte_writeByte hwf, if_neg (by omega)] at this

/-- A run of bytes that does not fit in memory raises `MemoryOutOfRange`. -/
theorem memWriteAll_error {s : State} {a : Nat} {bs : List Byte} (hne : bs ≠ []) (h : 0x1000 < a + bs.length) :
    s.memWriteAll a bs = .error .memoryOutOfRange := by
  induction bs generalizing s a with
  | nil => exact absurd rfl hne
  | cons b bs ih =>
    simp only [List.length_cons] at h
    by_cases ha : a ≤ 0xFFF
    · have hbs : bs ≠ [] := by rintro rfl; simp only [List.length_nil] at h; omega
      simp only [State.memWriteAll, memWrite_ok b ha]
      exact ih hbs (by omega)
    · simp only [State.memWriteAll, memWrite_error b (Nat.not_le.mp ha)]

/-! ### Registers and memory -/

/-- The register range V0 to Vx holds the registers numbered 0 to x (R174, R175). -/
theorem mem_regsUpTo : ∀ x r : RegIdx, r ∈ regsUpTo x ↔ r.toNat ≤ x.toNat := by decide +kernel

/-- Registers whose addresses are inside memory are stored, each at its address, and nothing else changes. -/
theorem storeRegs_ok {s : State} {base : Nat} {rs : List RegIdx} (hwf : Memory.wf s.params.font s.mem = true)
    (h : ∀ r ∈ rs, base + r.toNat ≤ 0xFFF) :
    ∃ m, State.storeRegs base rs s = .ok { s with mem := m } ∧ Memory.wf s.params.font m = true ∧
      (∀ r ∈ rs, Memory.read s.params.font m (base + r.toNat) = s.getV r) ∧
      ∀ a, (∀ r ∈ rs, a ≠ base + r.toNat) → Memory.read s.params.font m a = s.readByte a := by
  induction rs generalizing s with
  | nil => exact ⟨s.mem, rfl, hwf, fun _ h => absurd h List.not_mem_nil, fun _ _ => rfl⟩
  | cons r rs ih =>
    have hr := h r (List.mem_cons_self ..)
    obtain ⟨m, hm, hmwf, hin, hout⟩ := ih (s := s.writeByte (base + r.toNat) (s.getV r)) (writeByte_wf hr _ hwf)
      (fun q hq => h q (List.mem_cons_of_mem _ hq))
    refine ⟨m, ?_, hmwf, ?_, ?_⟩
    · simp only [State.storeRegs, memWrite_ok _ hr]
      exact hm
    · intro q hq
      by_cases hmem : q ∈ rs
      · exact hin q hmem
      · obtain rfl : q = r := (List.mem_cons.mp hq).resolve_right hmem
        have := hout (base + q.toNat) (fun p hp hEq => hmem (by
          rwa [BitVec.eq_of_toNat_eq (show q.toNat = p.toNat by omega)]))
        rwa [readByte_writeByte hwf, if_pos rfl] at this
    · intro a ha
      have := hout a (fun q hq => ha q (List.mem_cons_of_mem _ hq))
      rwa [readByte_writeByte hwf, if_neg (ha r (List.mem_cons_self ..))] at this

/-- Registers some of whose addresses are outside memory: `MemoryOutOfRange`. -/
theorem storeRegs_error {s : State} {base : Nat} {rs : List RegIdx} (h : ∃ r ∈ rs, 0xFFF < base + r.toNat) :
    State.storeRegs base rs s = .error .memoryOutOfRange := by
  induction rs generalizing s with
  | nil => obtain ⟨r, hr, -⟩ := h; exact absurd hr List.not_mem_nil
  | cons q rs ih =>
    by_cases hq : base + q.toNat ≤ 0xFFF
    · simp only [State.storeRegs, memWrite_ok _ hq]
      obtain ⟨r, hr, hgt⟩ := h
      refine ih ⟨r, (List.mem_cons.mp hr).resolve_left ?_, hgt⟩
      rintro rfl
      omega
    · simp only [State.storeRegs, memWrite_error _ (Nat.not_le.mp hq)]

/-- Registers whose addresses are inside memory are loaded, and nothing else changes. -/
theorem loadRegs_ok {s : State} {base : Nat} {rs : List RegIdx} (h : ∀ r ∈ rs, base + r.toNat ≤ 0xFFF) :
    ∃ v, State.loadRegs base rs s = .ok { s with v := v } ∧
      ∀ r, State.getV { s with v := v } r = if r ∈ rs then s.readByte (base + r.toNat) else s.getV r := by
  induction rs generalizing s with
  | nil => exact ⟨s.v, rfl, fun r => by simp⟩
  | cons q rs ih =>
    have hq := h q (List.mem_cons_self ..)
    obtain ⟨v, hv, hin⟩ := ih (s := s.setV q (s.readByte (base + q.toNat)))
      (fun r hr => h r (List.mem_cons_of_mem _ hr))
    refine ⟨v, ?_, ?_⟩
    · simp only [State.loadRegs, memRead_ok hq]
      exact hv
    · intro r
      refine (hin r).trans ?_
      by_cases hmem : r ∈ rs
      · simp [hmem]
      · by_cases hrq : r = q <;> simp [hmem, hrq]

/-- Registers some of whose addresses are outside memory: `MemoryOutOfRange`. -/
theorem loadRegs_error {s : State} {base : Nat} {rs : List RegIdx} (h : ∃ r ∈ rs, 0xFFF < base + r.toNat) :
    State.loadRegs base rs s = .error .memoryOutOfRange := by
  induction rs generalizing s with
  | nil => obtain ⟨r, hr, -⟩ := h; exact absurd hr List.not_mem_nil
  | cons q rs ih =>
    by_cases hq : base + q.toNat ≤ 0xFFF
    · simp only [State.loadRegs, memRead_ok hq]
      obtain ⟨r, hr, hgt⟩ := h
      refine ih ⟨r, (List.mem_cons.mp hr).resolve_left ?_, hgt⟩
      rintro rfl
      omega
    · simp only [State.loadRegs, memRead_error (Nat.not_le.mp hq)]

/-! ### The sprite -/

/-- Toggling pixel `p` inverts it and no other (R191). -/
theorem pixel_toggle {d : BitVec 2048} {p : Nat} (hp : p < 2048) (q : Nat) :
    Display.pixel (Display.toggle d p) q = (Display.pixel d q ^^ decide (q = p)) := by
  simp only [Display.pixel, Display.toggle, BitVec.getLsbD_xor, BitVec.getLsbD_shiftLeft, BitVec.getLsbD_one]
  congr 1
  by_cases h : q = p
  · subst h
    simp [hp]
  · have : ¬ (p ≤ q ∧ q - p = 0) := by omega
    simp only [h, decide_false]
    by_cases hle : q < p
    · simp [hle]
    · simp; omega

/-- A row whose set bits are all on the surface: each of their pixels is inverted, and the flag is raised when one of
them was lit. -/
theorem drawRow_ok {b : Byte} {base : Nat} {cs : List Nat} {d : Canvas} (hnd : cs.Nodup)
    (h : ∀ c ∈ cs, b.getLsbD (7 - c) = true → base + c < 2048) :
    ∃ d', drawRow b base cs d = .ok d' ∧
      (∀ q, Display.pixel d'.1 q =
        (Display.pixel d.1 q ^^ cs.any (fun c => b.getLsbD (7 - c) && decide (q = base + c)))) ∧
      d'.2 = (d.2 || cs.any (fun c => b.getLsbD (7 - c) && Display.pixel d.1 (base + c))) := by
  induction cs generalizing d with
  | nil => exact ⟨d, rfl, fun q => by simp, by simp⟩
  | cons c cs ih =>
    obtain ⟨hc, hnd⟩ := List.nodup_cons.mp hnd
    have h' := fun e he => h e (List.mem_cons_of_mem c he)
    by_cases hb : b.getLsbD (7 - c) = true
    · have hlt := h c (List.mem_cons_self ..) hb
      obtain ⟨d', hd', hpix, hhit⟩ :=
        ih (d := (Display.toggle d.1 (base + c), d.2 || Display.pixel d.1 (base + c))) hnd h'
      refine ⟨d', ?_, ?_, ?_⟩
      · simpa only [drawRow, hb, if_true, if_neg (Nat.not_le.mpr hlt)] using hd'
      · intro q
        have hne : ∀ e ∈ cs, (decide (q = base + c) && decide (q = base + e)) = false := by
          intro e he
          by_cases h1 : q = base + c
          · have : e ≠ c := fun h2 => hc (h2 ▸ he)
            subst h1
            have h3 : base + c ≠ base + e := by omega
            rw [decide_eq_false h3, Bool.and_false]
          · simp [h1]
        rw [hpix, pixel_toggle hlt, List.any_cons, hb, Bool.true_and]
        by_cases hq : q = base + c
        · have : cs.any (fun e => b.getLsbD (7 - e) && decide (q = base + e)) = false := by
            rw [List.any_eq_false]
            intro e he
            have h1 := hne e he
            simp only [hq, decide_true, Bool.true_and] at h1
            rw [hq, h1, Bool.and_false]
            exact Bool.false_ne_true
          rw [this, decide_eq_true hq, Bool.true_or, Bool.xor_false]
        · rw [decide_eq_false hq, Bool.false_or, Bool.xor_false]
      · rw [hhit, List.any_cons, hb, Bool.true_and, Bool.or_assoc]
        congr 2
        rw [Bool.eq_iff_iff]
        simp only [List.any_eq_true, Bool.and_eq_true]
        refine exists_congr fun e => and_congr_right fun he => and_congr_right fun _ => ?_
        rw [pixel_toggle hlt]
        have h2 : e ≠ c := fun h2 => hc (h2 ▸ he)
        have h3 : base + e ≠ base + c := by omega
        rw [decide_eq_false h3, Bool.xor_false]
    · obtain ⟨d', hd', hpix, hhit⟩ := ih (d := d) hnd h'
      exact ⟨d', by simpa [drawRow, hb] using hd', fun q => by rw [hpix, List.any_cons]; simp [hb],
        by rw [hhit, List.any_cons]; simp [hb]⟩

/-- A row with a set bit off the surface: `DisplayOutOfRange`. -/
theorem drawRow_error {b : Byte} {base : Nat} {cs : List Nat} {d : Canvas}
    (h : ∃ c ∈ cs, b.getLsbD (7 - c) = true ∧ 2048 ≤ base + c) :
    drawRow b base cs d = .error .displayOutOfRange := by
  induction cs generalizing d with
  | nil => obtain ⟨c, hc, -⟩ := h; exact absurd hc List.not_mem_nil
  | cons e cs ih =>
    obtain ⟨c, hc, hbit, hge⟩ := h
    unfold drawRow
    by_cases hec : c = e
    · subst hec
      simp [hbit, hge]
    · have h' := ih (d := (Display.toggle d.1 (base + e), d.2 || Display.pixel d.1 (base + e)))
        ⟨c, (List.mem_cons.mp hc).resolve_left hec, hbit, hge⟩
      have h'' := ih (d := d) ⟨c, (List.mem_cons.mp hc).resolve_left hec, hbit, hge⟩
      split_ifs <;> first | rfl | assumption

theorem mem_columns {c : Nat} : c ∈ columns ↔ c < 8 := by
  simp only [columns, List.mem_cons, List.not_mem_nil, or_false]
  omega

/-- Row `r` of a sprite at (px, py) can be drawn: its byte is in memory and its set bits are on the surface. -/
def RowDrawable (s : State) (px py r : Nat) : Prop :=
  s.i.toNat + r ≤ 0xFFF ∧ ∀ c < 8, spriteBit s r c = true → (py + r) * 64 + (px + c) < 2048

/-- Rows that can be drawn: the pixel of every set bit is inverted, and the flag is raised when one of them was lit
before (R191). -/
theorem drawRows_ok {s : State} {px py : Nat} {rs : List Nat} {d : Canvas} (hnd : rs.Nodup)
    (h : ∀ r ∈ rs, RowDrawable s px py r) :
    ∃ d', drawRows s px py rs d = .ok d' ∧
      (∀ q, Display.pixel d'.1 q = (Display.pixel d.1 q ^^
        rs.any (fun r => columns.any (fun c => spriteBit s r c && decide (q = (py + r) * 64 + (px + c)))))) ∧
      d'.2 = (d.2 || rs.any (fun r => columns.any (fun c =>
        spriteBit s r c && Display.pixel d.1 ((py + r) * 64 + (px + c))))) := by
  induction rs generalizing d with
  | nil => exact ⟨d, rfl, fun q => by simp, by simp⟩
  | cons r rs ih =>
    obtain ⟨hr, hnd⟩ := List.nodup_cons.mp hnd
    obtain ⟨hmem, hbits⟩ := h r (List.mem_cons_self ..)
    obtain ⟨d1, h1, hpix1, hhit1⟩ := drawRow_ok (b := s.readByte (s.i.toNat + r)) (base := (py + r) * 64 + px)
      (cs := columns) (d := d) (by decide)
      (fun c hc hb => by have := hbits c (mem_columns.mp hc) hb; omega)
    obtain ⟨d2, h2, hpix2, hhit2⟩ := ih (d := d1) hnd (fun q hq => h q (List.mem_cons_of_mem r hq))
    have hrow : ∀ q, columns.any (fun c => (s.readByte (s.i.toNat + r)).getLsbD (7 - c) &&
        decide (q = (py + r) * 64 + px + c)) =
        columns.any (fun c => spriteBit s r c && decide (q = (py + r) * 64 + (px + c))) := by
      intro q
      simp only [spriteBit, Nat.add_assoc]
    -- no pixel of row `r` is a pixel of a later row
    have hdis : ∀ q, columns.any (fun c => spriteBit s r c && decide (q = (py + r) * 64 + (px + c))) = true →
        rs.any (fun r => columns.any (fun c => spriteBit s r c && decide (q = (py + r) * 64 + (px + c)))) = false := by
      intro q hq
      simp only [List.any_eq_true, Bool.and_eq_true, decide_eq_true_eq] at hq
      obtain ⟨c, hc, -, hqc⟩ := hq
      rw [Bool.eq_false_iff]
      intro hany
      simp only [List.any_eq_true, Bool.and_eq_true, decide_eq_true_eq] at hany
      obtain ⟨r', hr', c', hc', -, hqc'⟩ := hany
      have := mem_columns.mp hc
      have := mem_columns.mp hc'
      have : r' ≠ r := fun h => hr (h ▸ hr')
      omega
    refine ⟨d2, ?_, ?_, ?_⟩
    · simp only [drawRows, memRead_ok hmem]
      simp only [h1, h2]
    · intro q
      rw [hpix2, hpix1, hrow, List.any_cons]
      cases hA : columns.any (fun c => spriteBit s r c && decide (q = (py + r) * 64 + (px + c)))
      · simp
      · simp [hdis q hA]
    · have hlater : (rs.any fun r' => columns.any fun c' =>
          spriteBit s r' c' && Display.pixel d1.1 ((py + r') * 64 + (px + c'))) =
          rs.any fun r' => columns.any fun c' =>
            spriteBit s r' c' && Display.pixel d.1 ((py + r') * 64 + (px + c')) := by
        rw [Bool.eq_iff_iff]
        simp only [List.any_eq_true, Bool.and_eq_true]
        refine exists_congr fun r' => and_congr_right fun hr' => exists_congr fun c' => and_congr_right fun hc' =>
          and_congr_right fun hbit => ?_
        have hnone : columns.any (fun c => spriteBit s r c &&
            decide ((py + r') * 64 + (px + c') = (py + r) * 64 + (px + c))) = false := by
          rw [List.any_eq_false]
          intro c hc
          have := mem_columns.mp hc
          have := mem_columns.mp hc'
          have : r' ≠ r := fun h => hr (h ▸ hr')
          simp only [Bool.and_eq_true, decide_eq_true_eq, not_and]
          omega
        rw [hpix1, hrow, hnone, Bool.xor_false]
      rw [hhit2, hhit1, List.any_cons, hlater, Bool.or_assoc]
      simp only [spriteBit, Nat.add_assoc]

/-- The first row that cannot be drawn raises: `MemoryOutOfRange` where its byte is outside memory, otherwise
`DisplayOutOfRange` (R232). -/
theorem drawRows_error {s : State} {px py r : Nat} {pre post : List Nat} {d : Canvas}
    (hpre : ∀ q ∈ pre, RowDrawable s px py q) (hr : ¬ RowDrawable s px py r) :
    drawRows s px py (pre ++ r :: post) d =
      .error (if 0xFFF < s.i.toNat + r then .memoryOutOfRange else .displayOutOfRange) := by
  induction pre generalizing d with
  | nil =>
    simp only [List.nil_append, drawRows]
    by_cases hmem : 0xFFF < s.i.toNat + r
    · simp only [memRead_error hmem, if_pos hmem]
    · have hle := Nat.not_lt.mp hmem
      have hbad : ∃ c ∈ columns, (s.readByte (s.i.toNat + r)).getLsbD (7 - c) = true ∧
          2048 ≤ (py + r) * 64 + px + c := by
        by_contra hno
        refine hr ⟨hle, fun c hc hb => ?_⟩
        by_contra hge
        exact hno ⟨c, mem_columns.mpr hc, hb, by omega⟩
      have := drawRow_error (d := d) hbad
      simp only [memRead_ok hle, this, if_neg hmem]
  | cons q pre ih =>
    obtain ⟨hmem, hbits⟩ := hpre q (List.mem_cons_self ..)
    obtain ⟨d1, h1, -, -⟩ := drawRow_ok (b := s.readByte (s.i.toNat + q)) (base := (py + q) * 64 + px)
      (cs := columns) (d := d) (by decide)
      (fun c hc hb => by have := hbits c (mem_columns.mp hc) hb; omega)
    simp only [List.cons_append, drawRows, memRead_ok hmem, h1]
    exact ih (fun p hp => hpre p (List.mem_cons_of_mem q hp))

/-! ### Keys and the end of an instruction -/

theorem keyNamed_ok {s : State} {k : Byte} (h : k.toNat < 16) : s.keyNamed k = .ok s.key[k.toNat] := by
  simp [State.keyNamed, h]

theorem keyNamed_error {s : State} {k : Byte} (h : 16 ≤ k.toNat) : s.keyNamed k = .error .keyIndexOutOfRange := by
  simp only [State.keyNamed, dif_neg (Nat.not_lt.mpr h)]

/-- The end of an instruction is what it computed, or the raised cause and nothing else (R7, R231). -/
theorem finish_next {s t : State} {w : Word} {e : Except Cause State} (h : finish s w e = .next t) :
    e = .ok t ∨ ∃ c, e = .error c ∧ t = s.raise c w := by
  cases e with
  | ok u => cases h; exact .inl rfl
  | error c => cases h; exact .inr ⟨c, rfl, rfl⟩

/-- A raised cause writes the fault latch only (R231). -/
theorem raise_raised (s : State) {c : Cause} (w : Word) (h : c ≠ .fetchOutOfRange) :
    Raised s c.code w (s.raise c w) :=
  ⟨⟨fun _ _ => rfl, fun p hp => by cases p <;> first | exact absurd (List.mem_singleton.mpr rfl) hp |
    simp [Part.Same], rfl, rfl⟩, rfl, rfl, rfl, by simp [h], rfl⟩

end Sys2Proof.Machine
end

