-- ==== Sys2Proof/Laws/Exec.lean ====
section
/-! SUPPORT. What a step can do, said once: the cycle's cases, and the inversion of `exec`: an instruction either raises,
or completes and keeps what no instruction touches. -/

namespace Sys2Proof.Machine

/-! ### The cycle (R100, R101) -/

theorem fetch_ok {s : State} (h : s.pc.toNat + 1 ≤ 0xFFF) :
    fetch s = .ok (wordOfBytes (s.readByte s.pc.toNat) (s.readByte (s.pc.toNat + 1))) := by
  rw [fetch, if_neg (Nat.not_lt.mpr h)]

theorem fetch_error {s : State} (h : 0xFFF ≤ s.pc.toNat) : fetch s = .error .fetchOutOfRange := by
  rw [fetch, if_pos (Nat.lt_succ_of_le h)]

theorem cycle_fetch_error {s : State} (h : 0xFFF ≤ s.pc.toNat) : cycle s = .next (s.raise .fetchOutOfRange 0) := by
  simp only [cycle, fetch_error h]

theorem cycle_illegal {s : State} {w : Word} (h : fetch s = .ok w) (hd : decode w = none) :
    cycle s = .next (s.raise .unknownOpcode w) := by
  simp only [cycle, h, hd]

theorem cycle_legal {s : State} {w : Word} {i : Instr} (h : fetch s = .ok w) (hd : decode w = some i) :
    cycle s = exec i s := by
  simp only [cycle, h, hd]

/-- A cycle raises at the fetch or the decode, or executes the instruction it decodes. -/
theorem cycle_cases (s : State) :
    cycle s = .next (s.raise .fetchOutOfRange 0) ∨ (∃ w, cycle s = .next (s.raise .unknownOpcode w)) ∨
      ∃ i, cycle s = exec i s := by
  by_cases h : s.pc.toNat + 1 ≤ 0xFFF
  · cases hd : decode (wordOfBytes (s.readByte s.pc.toNat) (s.readByte (s.pc.toNat + 1))) with
    | none => exact .inr (.inl ⟨_, cycle_illegal (fetch_ok h) hd⟩)
    | some i => exact .inr (.inr ⟨i, cycle_legal (fetch_ok h) hd⟩)
  · exact .inl (cycle_fetch_error (by omega))

/-! ### What an instruction keeps when it completes -/

/-- No instruction that completes touches the fault latch, the keys, the gate, the parameters or the pending host
transactions, and none spoils the memory's form or the stack pointer's range. -/
structure Completes (s t : State) : Prop where
  latch : t.halted = s.halted ∧ t.faultCode = s.faultCode ∧ t.faultWord = s.faultWord ∧ t.faultPc = s.faultPc
  key : t.key = s.key
  gate : t.started = s.started ∧ t.lastInstrTime = s.lastInstrTime ∧ t.lastTimerTime = s.lastTimerTime
  params : t.params = s.params
  calls : t.hostCalls = s.hostCalls
  mem_wf : Memory.wf s.params.font s.mem = true → Memory.wf t.params.font t.mem = true
  sp_le : s.sp.toNat ≤ 16 → t.sp.toNat ≤ 16

theorem Completes.of_eq {s t : State}
    (h : t = { s with
      v := t.v, i := t.i, pc := t.pc, stack := t.stack, dt := t.dt, st := t.st, wait := t.wait, disp := t.disp
      dirty := t.dirty, rngDraws := t.rngDraws }) : Completes s t := by
  rw [h]
  exact ⟨⟨rfl, rfl, rfl, rfl⟩, rfl, ⟨rfl, rfl, rfl⟩, rfl, rfl, id, id⟩

/-- What `finish` can answer: the computed state, or the raised cause. -/
theorem finish_cases {s t : State} {w : Word} {e : Except Cause State} (h : finish s w (e.map State.next) = .next t) :
    (∃ u, e = .ok u ∧ t = u.next) ∨ ∃ c, e = .error c ∧ t = s.raise c w := by
  cases e with
  | ok u => cases h; exact .inl ⟨u, rfl, rfl⟩
  | error c => cases h; exact .inr ⟨c, rfl, rfl⟩

theorem memWriteAll_cases (s : State) (a : Nat) (bs : List Byte) :
    s.memWriteAll a bs = .error .memoryOutOfRange ∨
      ∃ m, s.memWriteAll a bs = .ok { s with mem := m } ∧
        (Memory.wf s.params.font s.mem = true → Memory.wf s.params.font m = true) := by
  induction bs generalizing s a with
  | nil => exact .inr ⟨s.mem, rfl, id⟩
  | cons b bs ih =>
    by_cases ha : a ≤ 0xFFF
    · simp only [State.memWriteAll, memWrite_ok b ha]
      rcases ih (s.writeByte a b) (a + 1) with h | ⟨m, hm, hwf⟩
      · exact .inl h
      · exact .inr ⟨m, hm, fun h => hwf (writeByte_wf ha b h)⟩
    · simp only [State.memWriteAll, memWrite_error b (Nat.not_le.mp ha)]
      exact .inl trivial

theorem storeRegs_cases (base : Nat) (rs : List RegIdx) (s : State) :
    State.storeRegs base rs s = .error .memoryOutOfRange ∨
      ∃ m, State.storeRegs base rs s = .ok { s with mem := m } ∧
        (Memory.wf s.params.font s.mem = true → Memory.wf s.params.font m = true) := by
  induction rs generalizing s with
  | nil => exact .inr ⟨s.mem, rfl, id⟩
  | cons r rs ih =>
    by_cases ha : base + r.toNat ≤ 0xFFF
    · simp only [State.storeRegs, memWrite_ok _ ha]
      rcases ih (s.writeByte (base + r.toNat) (s.getV r)) with h | ⟨m, hm, hwf⟩
      · exact .inl h
      · exact .inr ⟨m, hm, fun h => hwf (writeByte_wf ha _ h)⟩
    · simp only [State.storeRegs, memWrite_error _ (Nat.not_le.mp ha)]
      exact .inl trivial

theorem loadRegs_cases (base : Nat) (rs : List RegIdx) (s : State) :
    State.loadRegs base rs s = .error .memoryOutOfRange ∨ ∃ v, State.loadRegs base rs s = .ok { s with v := v } := by
  by_cases h : ∀ r ∈ rs, base + r.toNat ≤ 0xFFF
  · obtain ⟨v, hv, -⟩ := loadRegs_ok (s := s) h
    exact .inr ⟨v, hv⟩
  · push Not at h
    exact .inl (loadRegs_error h)

theorem drawRow_cases (b : Byte) (base : Nat) (cs : List Nat) (d : Canvas) :
    drawRow b base cs d = .error .displayOutOfRange ∨ ∃ d', drawRow b base cs d = .ok d' := by
  induction cs generalizing d with
  | nil => exact .inr ⟨d, rfl⟩
  | cons c cs ih =>
    unfold drawRow
    split_ifs
    · exact .inl rfl
    · exact ih _
    · exact ih _

theorem drawRows_cases (s : State) (px py : Nat) (rs : List Nat) (d : Canvas) :
    (∃ c, drawRows s px py rs d = .error c ∧ (c = .memoryOutOfRange ∨ c = .displayOutOfRange)) ∨
      ∃ d', drawRows s px py rs d = .ok d' := by
  induction rs generalizing d with
  | nil => exact .inr ⟨d, rfl⟩
  | cons r rs ih =>
    by_cases hm : s.i.toNat + r ≤ 0xFFF
    · rcases drawRow_cases (s.readByte (s.i.toNat + r)) ((py + r) * 64 + px) columns d with h | ⟨d', h⟩
      · exact .inl ⟨_, by simp only [drawRows, memRead_ok hm, h], .inr rfl⟩
      · simp only [drawRows, memRead_ok hm, h]
        exact ih d'
    · exact .inl ⟨_, by simp only [drawRows, memRead_error (Nat.not_le.mp hm)], .inl rfl⟩

/-- The inversion of `exec`: an instruction that answers a next state raised a cause, whose word is its own and which
wrote the fault latch only, or completed (R7, R231). -/
theorem exec_cases {i : Instr} {s t : State} (h : exec i s = .next t) :
    (∃ c, c ≠ .fetchOutOfRange ∧ t = s.raise c (encode i)) ∨ Completes s t := by
  cases i with
  | ret =>
    simp only [exec, execRet] at h
    split_ifs at h with h0 h1
    · cases h; exact .inl ⟨.stackUnderflow, by decide, rfl⟩
    · cases h
      refine .inr ⟨⟨rfl, rfl, rfl, rfl⟩, rfl, ⟨rfl, rfl, rfl⟩, rfl, rfl, id, fun _ => ?_⟩
      have : s.sp.toNat ≠ 0 := fun h => h0 (BitVec.eq_of_toNat_eq h)
      have : s.sp.toNat < 256 := s.sp.isLt
      have : (1 : Byte).toNat = 1 := rfl
      simp only [jumpTo_sp, BitVec.toNat_sub]
      omega
  | call nnn =>
    simp only [exec, execCall] at h
    split_ifs at h with h0 h1
    · cases h; exact .inl ⟨.stackOverflow, by decide, rfl⟩
    · cases h
      refine .inr ⟨⟨rfl, rfl, rfl, rfl⟩, rfl, ⟨rfl, rfl, rfl⟩, rfl, rfl, id, fun _ => ?_⟩
      have : (1 : Byte).toNat = 1 := rfl
      simp only [jumpTo_sp, BitVec.toNat_add]
      omega
  | drw x y n =>
    simp only [exec, execDrw] at h
    rcases drawRows_cases s (s.getV x).toNat (s.getV y).toNat (spriteRows n) (s.disp, false) with ⟨c, hc, h'⟩ | ⟨d, hd⟩
    · rw [hc] at h
      cases h
      exact .inl ⟨c, by rcases h' with rfl | rfl <;> decide, rfl⟩
    · rw [hd] at h
      cases h
      exact .inr (.of_eq rfl)
  | skp x =>
    simp only [exec, execSkp] at h
    by_cases hk : (s.getV x).toNat < 16
    · rw [keyNamed_ok hk] at h
      cases h
      exact .inr (by cases s.key[(s.getV x).toNat] <;> exact .of_eq rfl)
    · rw [keyNamed_error (Nat.not_lt.mp hk)] at h
      cases h
      exact .inl ⟨_, by decide, rfl⟩
  | sknp x =>
    simp only [exec, execSknp] at h
    by_cases hk : (s.getV x).toNat < 16
    · rw [keyNamed_ok hk] at h
      cases h
      exact .inr (by cases s.key[(s.getV x).toNat] <;> exact .of_eq rfl)
    · rw [keyNamed_error (Nat.not_lt.mp hk)] at h
      cases h
      exact .inl ⟨_, by decide, rfl⟩
  | ldBVx x =>
    rcases finish_cases h with ⟨u, hu, rfl⟩ | ⟨c, hc, rfl⟩
    · rcases memWriteAll_cases s (s.addrOfI 0) (bcdDigits (s.getV x)) with he | ⟨m, hm, hwf⟩
      · rw [he] at hu; cases hu
      · rw [hm] at hu
        cases hu
        exact .inr ⟨⟨rfl, rfl, rfl, rfl⟩, rfl, ⟨rfl, rfl, rfl⟩, rfl, rfl, hwf, id⟩
    · rcases memWriteAll_cases s (s.addrOfI 0) (bcdDigits (s.getV x)) with he | ⟨m, hm, hwf⟩
      · rw [he] at hc; cases hc; exact .inl ⟨_, by decide, rfl⟩
      · rw [hm] at hc; cases hc
  | ldMemVx x =>
    rcases finish_cases h with ⟨u, hu, rfl⟩ | ⟨c, hc, rfl⟩
    · rcases storeRegs_cases (s.addrOfI 0) (regsUpTo x) s with he | ⟨m, hm, hwf⟩
      · rw [he] at hu; cases hu
      · rw [hm] at hu
        cases hu
        exact .inr ⟨⟨rfl, rfl, rfl, rfl⟩, rfl, ⟨rfl, rfl, rfl⟩, rfl, rfl, hwf, id⟩
    · rcases storeRegs_cases (s.addrOfI 0) (regsUpTo x) s with he | ⟨m, hm, hwf⟩
      · rw [he] at hc; cases hc; exact .inl ⟨_, by decide, rfl⟩
      · rw [hm] at hc; cases hc
  | ldVxMem x =>
    rcases finish_cases h with ⟨u, hu, rfl⟩ | ⟨c, hc, rfl⟩
    · rcases loadRegs_cases (s.addrOfI 0) (regsUpTo x) s with he | ⟨v, hv⟩
      · rw [he] at hu; cases hu
      · rw [hv] at hu
        cases hu
        exact .inr (.of_eq rfl)
    · rcases loadRegs_cases (s.addrOfI 0) (regsUpTo x) s with he | ⟨v, hv⟩
      · rw [he] at hc; cases hc; exact .inl ⟨_, by decide, rfl⟩
      · rw [hv] at hc; cases hc
  | seImm x kk | sneImm x kk =>
    cases h
    exact .inr ⟨by simp, by simp, by simp, by simp, by simp, by simp, by simp⟩
  | seReg x y | sneReg x y =>
    cases h
    exact .inr ⟨by simp, by simp, by simp, by simp, by simp, by simp, by simp⟩
  | _ => cases h; exact .inr (.of_eq rfl)

end Sys2Proof.Machine
end

