-- ==== Sys2Proof/Laws/PerInstr.lean ====
section
/-! SUPPORT. A family of statements about the instruction as it is encoded, one lemma per constructor: its word matches
the row of the opcode map that stands for it (30_encoding.md R72, R74). -/

namespace Sys2Proof.Laws.RowMatch

/-- The encoded word matches the instruction's own row, which is a row of the map. -/
def Statement (i : Instr) : Prop := i.row ∈ opcodeRows ∧ i.row.fits (encode i) = true

/-! ### One lemma per format: the mask keeps the fixed fields and drops the others -/

theorem and_nibble (a : Nibble) : a &&& 0xF#4 = a := BitVec.and_allOnes

theorem and_byte (a : Byte) : a &&& 0xFF#8 = a := BitVec.and_allOnes

theorem and_formatA (op : Nibble) (nnn : Addr12) : (op ++ nnn) &&& (0xF#4 ++ 0#12) = op ++ 0#12 := by
  rw [BitVec.and_append, and_nibble, BitVec.and_zero]

theorem and_formatXK (op : Nibble) (x : RegIdx) (kk : Byte) :
    (op ++ x ++ kk) &&& (0xF#4 ++ 0#4 ++ 0#8) = op ++ 0#4 ++ 0#8 := by
  rw [BitVec.and_append, BitVec.and_append, and_nibble, BitVec.and_zero, BitVec.and_zero]

theorem and_formatX (op : Nibble) (x : RegIdx) (f : Byte) :
    (op ++ x ++ f) &&& (0xF#4 ++ 0#4 ++ 0xFF#8) = op ++ 0#4 ++ f := by
  rw [BitVec.and_append, BitVec.and_append, and_nibble, BitVec.and_zero, and_byte]

theorem and_formatXY (op : Nibble) (x y : RegIdx) (f : Nibble) :
    (op ++ x ++ y ++ f) &&& (0xF#4 ++ 0#4 ++ 0#4 ++ 0xF#4) = op ++ 0#4 ++ 0#4 ++ f := by
  rw [BitVec.and_append, BitVec.and_append, BitVec.and_append, and_nibble, and_nibble, BitVec.and_zero,
    BitVec.and_zero]

theorem and_formatXYN (op : Nibble) (x y : RegIdx) (n : Nibble) :
    (op ++ x ++ y ++ n) &&& (0xF#4 ++ 0#4 ++ 0#4 ++ 0#4) = op ++ 0#4 ++ 0#4 ++ 0#4 := by
  rw [BitVec.and_append, BitVec.and_append, BitVec.and_append, and_nibble, BitVec.and_zero, BitVec.and_zero,
    BitVec.and_zero]

/-! ### One lemma per constructor -/

theorem cls : Statement .cls :=
  ⟨List.mem_of_elem_eq_true rfl, rfl⟩

theorem ret : Statement .ret :=
  ⟨List.mem_of_elem_eq_true rfl, rfl⟩

theorem jp (nnn : Addr12) : Statement (.jp nnn) :=
  ⟨List.mem_of_elem_eq_true rfl, beq_iff_eq.mpr (and_formatA 0x1#4 nnn)⟩

theorem call (nnn : Addr12) : Statement (.call nnn) :=
  ⟨List.mem_of_elem_eq_true rfl, beq_iff_eq.mpr (and_formatA 0x2#4 nnn)⟩

theorem seImm (x : RegIdx) (kk : Byte) : Statement (.seImm x kk) :=
  ⟨List.mem_of_elem_eq_true rfl, beq_iff_eq.mpr (and_formatXK 0x3#4 x kk)⟩

theorem sneImm (x : RegIdx) (kk : Byte) : Statement (.sneImm x kk) :=
  ⟨List.mem_of_elem_eq_true rfl, beq_iff_eq.mpr (and_formatXK 0x4#4 x kk)⟩

theorem seReg (x y : RegIdx) : Statement (.seReg x y) :=
  ⟨List.mem_of_elem_eq_true rfl, beq_iff_eq.mpr (and_formatXY 0x5#4 x y 0x0#4)⟩

theorem ldImm (x : RegIdx) (kk : Byte) : Statement (.ldImm x kk) :=
  ⟨List.mem_of_elem_eq_true rfl, beq_iff_eq.mpr (and_formatXK 0x6#4 x kk)⟩

theorem addImm (x : RegIdx) (kk : Byte) : Statement (.addImm x kk) :=
  ⟨List.mem_of_elem_eq_true rfl, beq_iff_eq.mpr (and_formatXK 0x7#4 x kk)⟩

theorem ldReg (x y : RegIdx) : Statement (.ldReg x y) :=
  ⟨List.mem_of_elem_eq_true rfl, beq_iff_eq.mpr (and_formatXY 0x8#4 x y 0x0#4)⟩

theorem orReg (x y : RegIdx) : Statement (.orReg x y) :=
  ⟨List.mem_of_elem_eq_true rfl, beq_iff_eq.mpr (and_formatXY 0x8#4 x y 0x1#4)⟩

theorem andReg (x y : RegIdx) : Statement (.andReg x y) :=
  ⟨List.mem_of_elem_eq_true rfl, beq_iff_eq.mpr (and_formatXY 0x8#4 x y 0x2#4)⟩

theorem xorReg (x y : RegIdx) : Statement (.xorReg x y) :=
  ⟨List.mem_of_elem_eq_true rfl, beq_iff_eq.mpr (and_formatXY 0x8#4 x y 0x3#4)⟩

theorem addReg (x y : RegIdx) : Statement (.addReg x y) :=
  ⟨List.mem_of_elem_eq_true rfl, beq_iff_eq.mpr (and_formatXY 0x8#4 x y 0x4#4)⟩

theorem sub (x y : RegIdx) : Statement (.sub x y) :=
  ⟨List.mem_of_elem_eq_true rfl, beq_iff_eq.mpr (and_formatXY 0x8#4 x y 0x5#4)⟩

theorem shr (x y : RegIdx) : Statement (.shr x y) :=
  ⟨List.mem_of_elem_eq_true rfl, beq_iff_eq.mpr (and_formatXY 0x8#4 x y 0x6#4)⟩

theorem subn (x y : RegIdx) : Statement (.subn x y) :=
  ⟨List.mem_of_elem_eq_true rfl, beq_iff_eq.mpr (and_formatXY 0x8#4 x y 0x7#4)⟩

theorem shl (x y : RegIdx) : Statement (.shl x y) :=
  ⟨List.mem_of_elem_eq_true rfl, beq_iff_eq.mpr (and_formatXY 0x8#4 x y 0xE#4)⟩

theorem sneReg (x y : RegIdx) : Statement (.sneReg x y) :=
  ⟨List.mem_of_elem_eq_true rfl, beq_iff_eq.mpr (and_formatXY 0x9#4 x y 0x0#4)⟩

theorem ldI (nnn : Addr12) : Statement (.ldI nnn) :=
  ⟨List.mem_of_elem_eq_true rfl, beq_iff_eq.mpr (and_formatA 0xA#4 nnn)⟩

theorem jpV0 (nnn : Addr12) : Statement (.jpV0 nnn) :=
  ⟨List.mem_of_elem_eq_true rfl, beq_iff_eq.mpr (and_formatA 0xB#4 nnn)⟩

theorem rnd (x : RegIdx) (kk : Byte) : Statement (.rnd x kk) :=
  ⟨List.mem_of_elem_eq_true rfl, beq_iff_eq.mpr (and_formatXK 0xC#4 x kk)⟩

theorem drw (x y : RegIdx) (n : Nibble) : Statement (.drw x y n) :=
  ⟨List.mem_of_elem_eq_true rfl, beq_iff_eq.mpr (and_formatXYN 0xD#4 x y n)⟩

theorem skp (x : RegIdx) : Statement (.skp x) :=
  ⟨List.mem_of_elem_eq_true rfl, beq_iff_eq.mpr (and_formatX 0xE#4 x 0x9E#8)⟩

theorem sknp (x : RegIdx) : Statement (.sknp x) :=
  ⟨List.mem_of_elem_eq_true rfl, beq_iff_eq.mpr (and_formatX 0xE#4 x 0xA1#8)⟩

theorem ldVxDt (x : RegIdx) : Statement (.ldVxDt x) :=
  ⟨List.mem_of_elem_eq_true rfl, beq_iff_eq.mpr (and_formatX 0xF#4 x 0x07#8)⟩

theorem ldVxK (x : RegIdx) : Statement (.ldVxK x) :=
  ⟨List.mem_of_elem_eq_true rfl, beq_iff_eq.mpr (and_formatX 0xF#4 x 0x0A#8)⟩

theorem ldDtVx (x : RegIdx) : Statement (.ldDtVx x) :=
  ⟨List.mem_of_elem_eq_true rfl, beq_iff_eq.mpr (and_formatX 0xF#4 x 0x15#8)⟩

theorem ldStVx (x : RegIdx) : Statement (.ldStVx x) :=
  ⟨List.mem_of_elem_eq_true rfl, beq_iff_eq.mpr (and_formatX 0xF#4 x 0x18#8)⟩

theorem addIVx (x : RegIdx) : Statement (.addIVx x) :=
  ⟨List.mem_of_elem_eq_true rfl, beq_iff_eq.mpr (and_formatX 0xF#4 x 0x1E#8)⟩

theorem ldFVx (x : RegIdx) : Statement (.ldFVx x) :=
  ⟨List.mem_of_elem_eq_true rfl, beq_iff_eq.mpr (and_formatX 0xF#4 x 0x29#8)⟩

theorem ldBVx (x : RegIdx) : Statement (.ldBVx x) :=
  ⟨List.mem_of_elem_eq_true rfl, beq_iff_eq.mpr (and_formatX 0xF#4 x 0x33#8)⟩

theorem ldMemVx (x : RegIdx) : Statement (.ldMemVx x) :=
  ⟨List.mem_of_elem_eq_true rfl, beq_iff_eq.mpr (and_formatX 0xF#4 x 0x55#8)⟩

theorem ldVxMem (x : RegIdx) : Statement (.ldVxMem x) :=
  ⟨List.mem_of_elem_eq_true rfl, beq_iff_eq.mpr (and_formatX 0xF#4 x 0x65#8)⟩

end Sys2Proof.Laws.RowMatch
end

