-- ==== Sys2Proof/Laws/Transactions.lean ====
section
/-! SUPPORT. What the host's transactions do to the parts they touch: the program copy, the timers' decrement, the timer
gate and the key states; what a step and a tick can be; and `Legal` from its check. -/

namespace Sys2Proof

open Sys2Proof.Machine

theorem Legal.of_check {s : State} (h : legalCheck s = true) : Legal s := by
  simp only [legalCheck, Bool.and_eq_true, decide_eq_true_eq, beq_iff_eq] at h
  obtain ⟨⟨⟨⟨h1, h2⟩, h3⟩, h4⟩, h5⟩ := h
  refine ⟨h1, by rw [h2, bne_iff_ne], fun hh => ?_, h4, h5⟩
  simpa [hh] using h3

/-- The gate does not look at the pending transactions. -/
theorem GateOpens.withCalls {now : BitVec 64} {s : State} (h : GateOpens now s) (l : List HostCall) :
    GateOpens now { s with hostCalls := l } := ⟨h.1, h.2, h.3, h.4, h.5, h.6⟩

end Sys2Proof

namespace Sys2Proof.Machine

/-- A program copied inside memory: its bytes stand from `a` up, no other byte changes, and nothing but memory does. -/
theorem copyBytes_ok {s : State} {a : Nat} {bs : List Byte} (h : a + bs.length ≤ 0x1000)
    (hwf : Memory.wf s.params.font s.mem = true) :
    ∃ m, s.copyBytes a bs = { s with mem := m } ∧ Memory.wf s.params.font m = true ∧
      (∀ j b, bs[j]? = some b → Memory.read s.params.font m (a + j) = b) ∧
      ∀ k, k < a ∨ a + bs.length ≤ k → Memory.read s.params.font m k = s.readByte k := by
  induction bs generalizing a with
  | nil => exact ⟨s.mem, rfl, hwf, by simp, fun _ _ => rfl⟩
  | cons b bs ih =>
    rw [List.length_cons] at h
    obtain ⟨m, hm, hmwf, hin, hout⟩ := ih (a := a + 1) (by omega)
    refine ⟨Memory.write s.params.font m a b, by simp only [State.copyBytes, hm]; rfl,
      Memory.write_wf (by omega) b hmwf, fun j c hj => ?_, fun k hk => ?_⟩
    · rw [Memory.read_write hmwf]
      cases j with
      | zero => simpa using hj
      | succ j => rw [if_neg (by omega), show a + (j + 1) = a + 1 + j by omega]; exact hin j c (by simpa using hj)
    · rw [List.length_cons] at hk
      rw [Memory.read_write hmwf, if_neg (by omega)]
      exact hout k (by omega)

theorem countDown_toNat : ∀ t : Byte, (countDown t).toNat = t.toNat - 1 := by decide +kernel

/-- The timer gate writes at most DT, ST and its own time. -/
theorem timerGate_eq (now : BitVec 64) (s : State) :
    timerGate now s = { s with
      dt := (timerGate now s).dt, st := (timerGate now s).st, lastTimerTime := (timerGate now s).lastTimerTime } := by
  unfold timerGate
  split <;> rfl

/-! ### The step and the tick -/

theorem step_none {s : State} (h : s.hostCalls = []) : step s = .next s := by
  simp only [step, h]

theorem step_pending {s : State} {c : HostCall} {rest : List HostCall} (h : s.hostCalls = c :: rest) :
    step s = hostCall c { s with hostCalls := rest } := by
  simp only [step, h]

/-- A tick whose instruction gate fires is the cycle and what follows it. -/
theorem hostTick_opens {now : BitVec 64} {s : State} (h : GateOpens now s) :
    hostTick now s = afterInstr now (cycle s) := by
  have hb : timeBackward now s = false := by simp [timeBackward, h.instr_le, h.timer_le]
  have hg : instrGateOpen now s = true := by simpa [instrGateOpen, h.awake] using h.gap
  simp [hostTick, h.running, h.started, hb, hg]

/-- Everything a tick that answers a next state can be. -/
theorem hostTick_cases {now : BitVec 64} {s t : State} (h : hostTick now s = .next t) :
    (s.halted = true ∧ t = s) ∨
    (s.halted = false ∧ s.started = false ∧
      t = { s with started := true, lastInstrTime := now, lastTimerTime := now }) ∨
    (GateOpens now s ∧ ∃ u, cycle s = .next u ∧
      ((u.halted = true ∧ t = u) ∨ (u.halted = false ∧ t = timerGate now { u with lastInstrTime := now }))) ∨
    (s.halted = false ∧ s.started = true ∧ instrGateOpen now s = false ∧ t = timerGate now s) := by
  simp only [hostTick] at h
  split_ifs at h with h1 h2 h3 h4
  · cases h; exact .inl ⟨h1, rfl⟩
  · cases h; exact .inr (.inl ⟨by simpa using h1, by simpa using h2, rfl⟩)
  · refine .inr (.inr (.inl ⟨?_, ?_⟩))
    · simp only [timeBackward, Bool.or_eq_true, decide_eq_true_eq, not_or, Nat.not_lt] at h3
      simp only [instrGateOpen, Bool.and_eq_true, decide_eq_true_eq, Option.isNone_iff_eq_none] at h4
      exact ⟨by simpa using h1, by simpa using h2, h3.1, h3.2, h4.1, h4.2⟩
    · cases hc : cycle s with
      | next u =>
        refine ⟨u, rfl, ?_⟩
        simp only [hc, afterInstr] at h
        split at h <;> cases h
        · exact .inl ⟨‹_›, rfl⟩
        · exact .inr ⟨by simp_all, rfl⟩
      | fault f => cases f
      | refused r => rw [hc] at h; cases h
  · cases h; exact .inr (.inr (.inr ⟨by simpa using h1, by simpa using h2, by simpa using h4, rfl⟩))

/-- A machine given its ticks is at the gate: the first of them fires it, unless the gap itself does not fit 64 bits. -/
theorem withTicks_opens {s : State} (hh : s.halted = false) (hw : s.wait = none) (hg : s.params.instrGapMs + 1 < 2 ^ 64)
    (n : Nat) : ∃ now rest, (s.withTicks (n + 1)).hostCalls = .tick now :: rest ∧ GateOpens now (s.withTicks (n + 1)) := by
  refine ⟨_, _, rfl, ?_⟩
  simp only [State.withTicks]
  by_cases h : s.gateTime < 2 ^ 64
  · rw [if_pos h]
    have h1 : s.lastInstrTime.toNat + s.params.instrGapMs + 1 ≤ s.gateTime := Nat.le_max_left _ _
    have h2 : s.lastTimerTime.toNat ≤ s.gateTime := Nat.le_max_right _ _
    refine ⟨hh, rfl, ?_, ?_, ?_, hw⟩ <;> simp only [BitVec.toNat_ofNat, Nat.mod_eq_of_lt h] <;> omega
  · rw [if_neg h]
    refine ⟨hh, rfl, Nat.zero_le _, Nat.zero_le _, ?_, hw⟩
    simp only [State.gateTime, BitVec.toNat_ofNat]
    simp
    omega

/-- A key's state after one key's state is written. -/
theorem keyAt_set {s : State} {k : Nat} (hk : k < 16) (b : Bool) (j : Nat) :
    keyAt { s with key := s.key.set k b } j = if j = k then b else keyAt s j := by
  simp only [keyAt, List.getD_eq_getElem?_getD, Vector.toList_set, List.getElem?_set]
  by_cases h : k = j
  · subst h; simp [hk]
  · rw [if_neg h, if_neg (Ne.symm h)]

end Sys2Proof.Machine
end

