-- ==== Sys2Proof/Tests/Slice0.lean ====
section
/-! SUPPORT. Tests of the model against the words and vectors of the spec (95_test_vectors.md parts 1 and 2 unless a
comment names another place), and for every statement with hypotheses a witness that meets them. -/

namespace Sys2Proof.Tests

open Sys2Proof.Machine

/-! ### Helpers -/

/-- The reset state with some registers set. -/
def regs (l : List (RegIdx × Byte)) : State := l.foldl (fun s p => s.setV p.1 p.2) State.reset

/-- One field of a step's next state. -/
def after {α : Type} (r : Result) (f : State → α) : Option α :=
  match r with
  | .next t => some (f t)
  | .fault _ => none
  | .refused _ => none

/-- One step on a state whose next instruction is the word `w`. -/
def run (w : Nat) (s : State) : Result := step (s.withFetchWord 16 w)

/-- The fault latch of a state. -/
def latch (s : State) : Bool × BitVec 4 × Word × Word := (s.halted, s.faultCode, s.faultWord, s.faultPc)

/-- The parameters with the shift quirk in legacy mode. -/
def legacy : Params := { Config.standard with shiftQuirk := .legacy }

/-- A state whose host calls one tick that fires the instruction gate. -/
def ticked (s : State) : State := s.withTicks 1

/-- A machine whose gate was last fired at `t`, about to run JP 0x200 at 0x200. -/
def ticking (t : BitVec 64) : State :=
  { State.reset.withFetchWord 16 0x1200 with
    started := true, lastInstrTime := t, lastTimerTime := t, hostCalls := [] }

/-! ### Decoding: one word for each instruction, its bits written out from 30_encoding.md R74 -/

theorem test_decode_cls : decode 0b0000000011100000 = some .cls := by decide
theorem test_decode_ret : decode 0b0000000011101110 = some .ret := by decide
theorem test_decode_jp : decode 0b0001101010111100 = some (.jp 0xABC) := by decide
theorem test_decode_call : decode 0b0010001100000001 = some (.call 0x301) := by decide
theorem test_decode_seImm : decode 0b0011011100010000 = some (.seImm 0x7 0x10) := by decide
theorem test_decode_sneImm : decode 0b0100011111110001 = some (.sneImm 0x7 0xF1) := by decide
theorem test_decode_seReg : decode 0b0101000100100000 = some (.seReg 0x1 0x2) := by decide
theorem test_decode_ldImm : decode 0b0110111110101010 = some (.ldImm 0xF 0xAA) := by decide
theorem test_decode_addImm : decode 0b0111000011111111 = some (.addImm 0x0 0xFF) := by decide
theorem test_decode_ldReg : decode 0b1000000000010000 = some (.ldReg 0x0 0x1) := by decide
theorem test_decode_orReg : decode 0b1000000000010001 = some (.orReg 0x0 0x1) := by decide
theorem test_decode_andReg : decode 0b1000000100100010 = some (.andReg 0x1 0x2) := by decide
theorem test_decode_xorReg : decode 0b1000001000010011 = some (.xorReg 0x2 0x1) := by decide
theorem test_decode_addReg : decode 0b1000111100010100 = some (.addReg 0xF 0x1) := by decide
theorem test_decode_sub : decode 0b1000000011110101 = some (.sub 0x0 0xF) := by decide
theorem test_decode_shr : decode 0b1000000000010110 = some (.shr 0x0 0x1) := by decide
theorem test_decode_subn : decode 0b1000000000010111 = some (.subn 0x0 0x1) := by decide
theorem test_decode_shl : decode 0b1000000100101110 = some (.shl 0x1 0x2) := by decide
theorem test_decode_sneReg : decode 0b1001000100100000 = some (.sneReg 0x1 0x2) := by decide
theorem test_decode_ldI : decode 0b1010001011110000 = some (.ldI 0x2F0) := by decide
theorem test_decode_jpV0 : decode 0b1011111111111111 = some (.jpV0 0xFFF) := by decide
theorem test_decode_rnd : decode 0b1100001100001111 = some (.rnd 0x3 0x0F) := by decide
theorem test_decode_drw : decode 0b1101000100100101 = some (.drw 0x1 0x2 0x5) := by decide
theorem test_decode_skp : decode 0b1110010110011110 = some (.skp 0x5) := by decide
theorem test_decode_sknp : decode 0b1110010110100001 = some (.sknp 0x5) := by decide
theorem test_decode_ldVxDt : decode 0b1111001000000111 = some (.ldVxDt 0x2) := by decide
theorem test_decode_ldVxK : decode 0b1111001100001010 = some (.ldVxK 0x3) := by decide
theorem test_decode_ldDtVx : decode 0b1111000100010101 = some (.ldDtVx 0x1) := by decide
theorem test_decode_ldStVx : decode 0b1111000100011000 = some (.ldStVx 0x1) := by decide
theorem test_decode_addIVx : decode 0b1111001000011110 = some (.addIVx 0x2) := by decide
theorem test_decode_ldFVx : decode 0b1111010000101001 = some (.ldFVx 0x4) := by decide
theorem test_decode_ldBVx : decode 0b1111000000110011 = some (.ldBVx 0x0) := by decide
theorem test_decode_ldMemVx : decode 0b1111001001010101 = some (.ldMemVx 0x2) := by decide
theorem test_decode_ldVxMem : decode 0b1111000101100101 = some (.ldVxMem 0x1) := by decide

/-! ### The checks refuse what is ill formed -/

/-- R75: a word of each illegal group, among them those of the vectors of section 2.1. -/
def illegalWords : List Word :=
  [0x0000, 0x0123, 0x00C1, 0x00FB, 0x00FF, 0x5121, 0x8008, 0x800F, 0x9121, 0xE000, 0xE19F, 0xF030, 0xF075, 0xF085,
   0xFFFF]

theorem test_ill_formed_words_refused : illegalWords.all (fun w => !wellFormedWord w) = true := by decide
theorem test_ill_formed_words_not_decoded : illegalWords.all (fun w => (decode w).isNone) = true := by decide
theorem test_well_formed_words : [0x00E0, 0x00EE, 0x812E, 0xF165, 0x5120].all wellFormedWord = true := by decide
theorem test_decode_error_named : decodeBytes [0x51, 0x21] = .error (.unknownOpcode 0x5121) := rfl
theorem test_decode_error_truncated : decodeBytes [0x12] = .error .truncated := rfl
theorem test_decode_keeps_rest : decodeBytes [0x12, 0x34, 0x56] = .ok (.jp 0x234, [0x56]) := rfl
theorem test_table_word : decodeTableWord 16 0xA2F0 = some (.ldI 0x2F0) := by decide

/-! Legal states (R38), and one state that breaks each invariant. -/

theorem test_reset_is_legal : legalCheck State.reset = true := by decide
theorem test_sp_17_illegal : legalCheck { State.reset with sp := 17 } = false := by decide
theorem test_halted_without_code_illegal : legalCheck { State.reset with halted := true } = false := by decide
theorem test_code_without_halt_illegal : legalCheck { State.reset with faultCode := 1 } = false := by decide
theorem test_halted_waiting_illegal :
    legalCheck { State.reset with halted := true, faultCode := 1, wait := some 0 } = false := by decide
theorem test_code_8_illegal : legalCheck { State.reset with halted := true, faultCode := 8 } = false := by decide
theorem test_memory_unsorted_illegal : legalCheck { State.reset with mem := [(0x300, 1), (0x300, 2)] } = false := by
  decide
theorem test_memory_lists_reset_byte_illegal : legalCheck { State.reset with mem := [(0, 0xF0)] } = false := by decide
theorem test_memory_past_end_illegal : legalCheck { State.reset with mem := [(0x1000, 1)] } = false := by decide

/-! ### Reset, fetch and decode -/

/-- R36, R39: glyph 5 of the default font at 0x19, zero at 0x50. -/
theorem test_reset_font : (List.range 5).map (fun j => State.reset.readByte (0x19 + j)) = [0xF0, 0x80, 0xF0, 0x10, 0xF0] ∧
    State.reset.readByte 0x50 = 0 := by decide
theorem test_fetch_at_ffe :
    after (step (ticked { State.reset with pc := 0xFFE, mem := [(0xFFE, 0x12)] })) (fun t => t.pc) = some 0x200 := by decide
theorem test_fetch_at_fff :
    after (step (ticked { State.reset with pc := 0xFFF })) latch = some (true, 4, 0x0000, 0x0FFF) := by decide
theorem test_fetch_odd_pc :
    after (step (ticked { State.reset with pc := 0x201, mem := [(0x201, 0x60), (0x202, 0x07)] }))
      (fun t => (t.getV 0, t.pc)) = some (7, 0x203) := by decide
theorem test_illegal_word : after (run 0x5121 State.reset) latch = some (true, 1, 0x5121, 0x200) := by decide
theorem test_nothing_placed_zero_word : after (step (ticked State.reset)) latch = some (true, 1, 0x0000, 0x200) := by decide

/-! ### Control flow -/

theorem test_ret_pops :
    after (run 0x00EE { State.reset with sp := 2, stack := State.reset.stack.set 1 0x350 }) (fun t => (t.sp, t.pc)) =
      some (1, 0x352) := by decide
theorem test_ret_underflow : after (run 0x00EE State.reset) (fun t => (latch t, t.sp, t.pc)) =
    some ((true, 3, 0x00EE, 0x200), 0, 0x200) := by decide
theorem test_jp : after (run 0x1ABC State.reset) (fun t => t.pc) = some 0xABC := by decide
theorem test_call_last_entry :
    after (run 0x2400 { State.reset with pc := 0x204, sp := 15 }) (fun t => (stackAt t 15, t.sp, t.pc)) =
      some (0x204, 16, 0x400) := by decide
theorem test_call_overflow :
    after (run 0x2200 { State.reset with sp := 16 }) (fun t => (latch t, t.sp, t.pc)) =
      some ((true, 2, 0x2200, 0x200), 16, 0x200) := by decide
theorem test_se_imm_skips : after (run 0x3710 (regs [(7, 0x10)])) (fun t => t.pc) = some 0x204 := by decide
theorem test_se_imm_falls : after (run 0x3710 (regs [(7, 0x11)])) (fun t => t.pc) = some 0x202 := by decide
theorem test_sne_imm_skips : after (run 0x4710 (regs [(7, 0x11)])) (fun t => t.pc) = some 0x204 := by decide
theorem test_se_reg_same : after (run 0x5770 (regs [(7, 0x11)])) (fun t => t.pc) = some 0x204 := by decide
theorem test_se_reg_falls : after (run 0x5120 (regs [(1, 3), (2, 4)])) (fun t => t.pc) = some 0x202 := by decide
theorem test_sne_reg_same : after (run 0x9770 (regs [(7, 0x11)])) (fun t => t.pc) = some 0x202 := by decide
theorem test_sne_reg_skips : after (run 0x9120 (regs [(1, 3), (2, 4)])) (fun t => t.pc) = some 0x204 := by decide
theorem test_jp_v0_past_memory : after (run 0xBFFF (regs [(0, 0xFF)])) (fun t => t.pc) = some 0x10FE := by decide
theorem test_jp_v0_odd : after (run 0xB200 (regs [(0, 1)])) (fun t => t.pc) = some 0x201 := by decide

/-! ### Register loads and ALU -/

theorem test_ld_imm : after (run 0x6FAA State.reset) (fun t => (t.getV 0xF, t.pc)) = some (0xAA, 0x202) := by decide
theorem test_add_imm_wraps : after (run 0x7001 (regs [(0, 0xFF), (0xF, 0)])) (fun t => (t.getV 0, t.getV 0xF)) =
    some (0, 0) := by decide
theorem test_ld_reg : after (run 0x8010 (regs [(1, 0x99)])) (fun t => (t.getV 0, t.getV 1)) = some (0x99, 0x99) := by
  decide
theorem test_or : after (run 0x8011 (regs [(0, 0x0F), (1, 0xF0), (0xF, 7)])) (fun t => (t.getV 0, t.getV 0xF)) =
    some (0xFF, 7) := by decide
theorem test_and : after (run 0x8012 (regs [(0, 0x3C), (1, 0x0F)])) (fun t => t.getV 0) = some 0x0C := by decide
theorem test_xor : after (run 0x8013 (regs [(0, 0x3C), (1, 0x0F)])) (fun t => t.getV 0) = some 0x33 := by decide
/-- E1. -/
theorem test_add_carry : after (run 0x8014 (regs [(0, 200), (1, 88)])) (fun t => (t.getV 0, t.getV 0xF)) =
    some (32, 1) := by decide
theorem test_add_into_vf : after (run 0x8F14 (regs [(0xF, 200), (1, 88)])) (fun t => t.getV 0xF) = some 32 := by decide
theorem test_sub_equal : after (run 0x8015 (regs [(0, 5), (1, 5), (0xF, 9)])) (fun t => (t.getV 0, t.getV 0xF)) =
    some (0, 0) := by decide
/-- E4. -/
theorem test_sub_wraps : after (run 0x8015 (regs [(0, 0x55), (1, 0x88)])) (fun t => (t.getV 0, t.getV 0xF)) =
    some (205, 0) := by decide
theorem test_shr_modern : after (run 0x8016 (regs [(0, 0x01), (1, 0xFE)])) (fun t => (t.getV 0, t.getV 0xF)) =
    some (0, 1) := by decide
theorem test_shr_legacy :
    after (run 0x8016 { regs [(0, 0x01), (1, 0xFE)] with params := legacy })
      (fun t => (t.getV 0, t.getV 0xF, t.getV 1)) = some (0x7F, 0, 0xFE) := by decide
theorem test_subn : after (run 0x8017 (regs [(0, 54), (1, 200)])) (fun t => (t.getV 0, t.getV 0xF)) =
    some (146, 1) := by decide
theorem test_subn_wraps : after (run 0x8017 (regs [(0, 200), (1, 54)])) (fun t => (t.getV 0, t.getV 0xF)) =
    some (110, 0) := by decide
theorem test_shl_legacy :
    after (run 0x801E { regs [(1, 0x41), (0xF, 5)] with params := legacy }) (fun t => (t.getV 0, t.getV 0xF)) =
      some (0x82, 0) := by decide
theorem test_shl_into_vf : after (run 0x8F0E (regs [(0xF, 0x81)])) (fun t => t.getV 0xF) = some 0x02 := by decide
/-- "any draw, w = 0xC300" gives 0. -/
theorem test_rnd_masked_to_zero : ∀ s : State, after (exec (.rnd 3 0) s) (fun t => t.getV 3) = some 0 := by
  intro s
  show some (State.getV _ 3) = some 0
  simp [State.drawRand]

/-! ### Index and memory -/

theorem test_ld_i : after (run 0xA2F0 State.reset) (fun t => t.i) = some 0x2F0 := by decide
theorem test_add_i_wraps :
    after (run 0xF01E { regs [(0, 1), (0xF, 3)] with i := 0xFFFF }) (fun t => (t.i, t.getV 0xF)) = some (0, 3) := by
  decide
theorem test_ld_f_past_font : after (run 0xF029 (regs [(0, 0xFF)])) (fun t => t.i) = some 1275 := by decide
theorem test_bcd_at_top :
    after (run 0xF033 { regs [(0, 123)] with i := 0xFFD })
      (fun t => (t.readByte 0xFFD, t.readByte 0xFFE, t.readByte 0xFFF, t.i)) = some (1, 2, 3, 0xFFD) := by decide
theorem test_bcd_out_of_range :
    after (run 0xF033 { regs [(0, 123)] with i := 0xFFE }) (fun t => (t.faultCode, t.readByte 0xFFE, t.readByte 0xFFF)) =
      some (5, 0, 0) := by decide
theorem test_store_at_top :
    after (run 0xF155 { regs [(0, 0xAA), (1, 0xBB)] with i := 0xFFE })
      (fun t => (t.readByte 0xFFE, t.readByte 0xFFF, t.i)) = some (0xAA, 0xBB, 0xFFE) := by decide
theorem test_store_out_of_range :
    after (run 0xFF55 { regs [(0, 0xAA)] with i := 0xFF1 }) (fun t => (t.faultCode, t.readByte 0xFF1)) =
      some (5, 0) := by decide
theorem test_load_glyph :
    after (run 0xF465 (regs [(5, 9)])) (fun t => (t.getV 0, t.getV 1, t.getV 4, t.getV 5, t.i)) =
      some (0xF0, 0x90, 0xF0, 9, 0) := by decide
theorem test_load_out_of_range :
    after (run 0xF065 { State.reset with i := 0x1000 }) (fun t => (t.faultCode, t.pc)) = some (5, 0x200) := by decide

/-! ### Display -/

theorem test_cls :
    after (run 0x00E0 { State.reset with disp := 1#2048 }) (fun t => (Display.pixel t.disp 0, t.dirty, t.pc)) =
      some (false, true, 0x202) := by decide +kernel
/-- Glyph 0's row F0 at (62, 0): the index runs on into the next row. -/
theorem test_drw_runs_on :
    after (run 0xD011 (regs [(0, 62), (1, 0), (0xF, 7)]))
      (fun t => ([61, 62, 63, 64, 65, 66].map (Display.pixel t.disp), t.getV 0xF, t.dirty)) =
      some ([false, true, true, true, true, false], 0, true) := by decide +kernel
/-- VF = 10 is read before it is cleared; pixel 10 is lit, so VF = 1. -/
theorem test_drw_collides :
    after (run 0xDF11 { regs [(0xF, 10)] with disp := 1#2048 <<< 10 })
      (fun t => ([10, 11, 13, 14].map (Display.pixel t.disp), t.getV 0xF)) =
      some ([false, true, true, false], 1) := by decide +kernel
theorem test_drw_past_display :
    after (run 0xD012 (regs [(0, 0), (1, 31)])) (fun t => (t.faultCode, Display.pixel t.disp 1984, t.dirty)) =
      some (6, false, false) := by decide +kernel
theorem test_drw_past_memory :
    after (run 0xD013 { State.reset with i := 0xFFE }) (fun t => (t.faultCode, t.faultWord)) =
      some (5, 0xD013) := by decide

/-! ### Keys and timers -/

theorem test_skp_pressed :
    after (run 0xE09E { regs [(0, 15)] with key := State.reset.key.set 15 true }) (fun t => t.pc) = some 0x204 := by decide
theorem test_skp_out_of_range : after (run 0xE09E (regs [(0, 0x10)])) latch = some (true, 7, 0xE09E, 0x200) := by decide
theorem test_sknp_not_pressed : after (run 0xE0A1 (regs [(0, 15)])) (fun t => t.pc) = some 0x204 := by decide
theorem test_ld_vx_dt : after (run 0xF507 { State.reset with dt := 0x3C }) (fun t => t.getV 5) = some 0x3C := by decide
theorem test_ld_dt_vx : after (run 0xF115 (regs [(1, 0x1E)])) (fun t => (t.dt, t.st)) = some (0x1E, 0) := by decide
theorem test_ld_st_vx : after (run 0xF518 (regs [(5, 0xFF)])) (fun t => (t.st, t.dt)) = some (0xFF, 0) := by decide
/-- A key already held does not end the wait. -/
theorem test_ld_vx_k_holds :
    after (run 0xF70A { State.reset with pc := 0x300, key := State.reset.key.set 2 true }) (fun t => (t.wait, t.pc)) =
      some (some 7, 0x300) := by decide

/-! ### The host's transactions -/

theorem test_key_down_completes :
    after (hostCall (.keyDown 2) { State.reset with wait := some 7, pc := 0x300 })
      (fun t => (t.getV 7, t.pc, t.wait, keyAt t 2)) = some (2, 0x302, none, true) := by decide
theorem test_key_up_keeps_wait :
    after (hostCall (.keyUp 2) { State.reset with wait := some 7, key := State.reset.key.set 2 true })
      (fun t => (t.wait, keyAt t 2)) = some (some 7, false) := by decide
theorem test_first_tick :
    after (hostCall (.tick 100) State.reset) (fun t => (t.started, t.lastInstrTime, t.lastTimerTime, t.pc)) =
      some (true, 100, 100, 0x200) := by decide
/-- Two ticks of a machine last fired at 100: the second is one gap after the first (R289). -/
theorem test_with_ticks : ((ticking 100).withTicks 2).hostCalls = [.tick 104, .tick 108] := by decide
/-- tick(103) after 100: 3 is not > 3. -/
theorem test_tick_at_gap : after (hostCall (.tick 103) (ticking 100)) (fun t => t.lastInstrTime) = some 100 := by decide
/-- tick(104) after 100: one instruction. -/
theorem test_tick_over_gap : after (hostCall (.tick 104) (ticking 100)) (fun t => (t.lastInstrTime, t.pc)) =
    some (104, 0x200) := by decide
theorem test_tick_116_no_decrement :
    after (hostCall (.tick 116) { ticking 100 with dt := 2 }) (fun t => (t.dt, t.lastTimerTime)) = some (2, 100) := by
  decide
theorem test_tick_117_decrements :
    after (hostCall (.tick 117) { ticking 100 with dt := 2 }) (fun t => (t.dt, t.st, t.lastTimerTime)) =
      some (1, 0, 117) := by decide
/-- No catch-up. -/
theorem test_tick_10000 : after (hostCall (.tick 10000) { ticking 0 with dt := 9 }) (fun t => t.dt) = some 8 := by decide
theorem test_tick_while_waiting :
    after (hostCall (.tick 200) { ticking 0 with dt := 9, wait := some 3 }) (fun t => (t.dt, t.lastInstrTime)) =
      some (8, 0) := by decide
/-- loadProgram([]) then a tick: the fault ends the tick. -/
theorem test_fault_ends_tick :
    after (hostCall (.tick 20) { State.reset with started := true, dt := 4 }) (fun t => (latch t, t.dt, t.lastInstrTime)) =
      some ((true, 1, 0x0000, 0x200), 4, 0) := by decide
theorem test_load_program :
    after (hostCall (.loadProgram [0xA3, 0x00, 0x60]) { regs [(3, 4)] with pc := 0x400 })
      (fun t => (t.readByte 0x200, t.readByte 0x201, t.readByte 0x202, t.readByte 0x203, t.getV 3, t.pc)) =
      some (0xA3, 0x00, 0x60, 0x00, 0, 0x200) := by decide
theorem test_load_too_large : (hostLoad (List.replicate 3585 0x12) State.reset).1 = .romTooLarge := by decide +kernel
theorem test_load_largest : (hostLoad (List.replicate 3584 0x12) State.reset).1 = .ok := by decide +kernel
theorem test_reset_clears_halt :
    after (hostCall .reset { State.reset with halted := true, faultCode := 2, mem := [(0x200, 1)] })
      (fun t => (t.halted, t.faultCode, t.readByte 0x200)) = some (false, 0, 0) := by decide
theorem test_host_view : (hostView { State.reset with dirty := true }).dirty = true := rfl

/-! ### Witnesses: the hypotheses of each statement can be met -/

/-- StepKeepsLegal, ParametersNeverChange: a tick that runs an instruction. -/
theorem witness_step_instruction : ∃ s t, Legal s ∧ step s = .next t ∧ t.getV 0 = 32 :=
  ⟨(regs [(0, 200), (1, 88)]).withFetchWord 16 0x8014, _, Legal.of_check (by decide), rfl, by decide⟩

/-- OnlyNamedInstructionsWrite, SoundTimerAndDirtyAreUnread: an instruction and a register it does not name, and one that
writes VF beside its own. -/
theorem witness_only_named :
    (∃ t, exec (.ldVxMem 1) (regs [(2, 5)]) = .next t ∧ ¬ (Instr.ldVxMem 1).namesDest 2 ∧
      ¬ ((2 : RegIdx) = vF ∧ (Instr.ldVxMem 1).writesFlag) ∧ t.getV 0 ≠ 0) ∧
    (∃ t, exec (.addReg 0 1) (regs [(0, 200), (1, 88)]) = .next t ∧ ¬ (Instr.addReg 0 1).namesDest 1 ∧
      (Instr.addReg 0 1).writesFlag ∧ t.getV vF = 1) :=
  ⟨⟨_, rfl, by unfold Instr.namesDest; decide, by unfold Instr.writesFlag; decide, by decide⟩,
   ⟨_, rfl, by unfold Instr.namesDest; decide, trivial, by decide⟩⟩

/-- StepKeepsLegal, ParametersNeverChange: a host transaction. -/
theorem witness_step_host_call : ∃ s t, Legal s ∧ step s = .next t ∧ keyAt t 3 = true :=
  ⟨{ State.reset with hostCalls := [.keyDown 3] }, _, Legal.of_check (by decide), rfl, by decide⟩

/-- EncodeOfDecode and the first clause of DecodeFollowsOpcodeMap. -/
theorem witness_decode_legal : decode 0xF165 = some (.ldVxMem 1) ∧ (Instr.ldVxMem 1).row ∈ opcodeRows := by decide

/-- The second clause of DecodeFollowsOpcodeMap. -/
theorem witness_decode_illegal : decode 0x8008 = none := by decide

/-- StepRunsDecodedInstruction, at the last address that can be fetched and one millisecond over the gap. -/
theorem witness_step_runs :
    ∃ (s : State) (now : BitVec 64) (rest : List HostCall), s.hostCalls = .tick now :: rest ∧ GateOpens now s ∧
      now.toNat - s.lastInstrTime.toNat = s.params.instrGapMs + 1 ∧ s.pc.toNat + 1 = 0xFFF ∧
      decodeBytes [s.readByte s.pc.toNat, s.readByte (s.pc.toNat + 1)] = .ok (.jp 0x200, []) :=
  ⟨ticked { State.reset with pc := 0xFFE, mem := [(0xFFE, 0x12)] }, _, _, rfl,
   ⟨rfl, rfl, by decide, by decide, by decide, rfl⟩, rfl, rfl, rfl⟩

/-- FetchOutOfRangeFaults, at the first address that cannot be fetched and at the last PC. -/
theorem witness_fetch_fault :
    (∃ (s : State) (now : BitVec 64) (rest : List HostCall), s.hostCalls = .tick now :: rest ∧ GateOpens now s ∧
      s.pc.toNat = 0xFFF) ∧
    (∃ (s : State) (now : BitVec 64) (rest : List HostCall), s.hostCalls = .tick now :: rest ∧ GateOpens now s ∧
      s.pc.toNat = 0xFFFF) :=
  ⟨⟨ticked { State.reset with pc := 0xFFF }, _, _, rfl, ⟨rfl, rfl, by decide, by decide, by decide, rfl⟩, rfl⟩,
   ⟨ticked { State.reset with pc := 0xFFFF }, _, _, rfl, ⟨rfl, rfl, by decide, by decide, by decide, rfl⟩, rfl⟩⟩

/-- IllegalWordFaults. -/
theorem witness_illegal_word :
    ∃ (s : State) (w : Word) (now : BitVec 64) (rest : List HostCall), s.hostCalls = .tick now :: rest ∧
      GateOpens now s ∧ s.pc.toNat + 1 ≤ 0xFFF ∧
      w.toNat = (s.readByte s.pc.toNat).toNat * 256 + (s.readByte (s.pc.toNat + 1)).toNat ∧ decode w = none ∧
      w = 0x5121 :=
  ⟨State.reset.withFetchWord 16 0x5121, 0x5121, _, _, rfl, ⟨rfl, rfl, by decide, by decide, by decide, rfl⟩, by decide,
   by decide, by decide, rfl⟩

/-- HaltedOrWaitingCoreIdles, each way, with the timers counting in the second. -/
theorem witness_idle :
    (∃ s t, Legal s ∧ s.halted = true ∧ hostCall (.tick 200) s = .next t) ∧
    (∃ s t, Legal s ∧ s.wait ≠ none ∧ hostCall (.tick 200) s = .next t ∧ t.dt ≠ s.dt) :=
  ⟨⟨{ State.reset with halted := true, faultCode := 1 }, _, Legal.of_check (by decide), rfl, rfl⟩,
   ⟨{ ticking 0 with wait := some 0, dt := 9 }, _, Legal.of_check (by decide), by decide, rfl, by decide⟩⟩

/-- NoHostCallNoChange: a machine that no host calls, such as the reset state. -/
theorem witness_no_host_call : State.reset.hostCalls = [] := rfl

/-- InstructionsNeedSpacedTicks, first clause: a step that runs nothing and one that runs an instruction. -/
theorem witness_steps :
    (∃ s t, s.started = true ∧ s.hostCalls = [.tick 103] ∧ step s = .next t ∧ t.lastInstrTime = 100) ∧
    (∃ s t, s.started = true ∧ s.hostCalls = [.tick 104] ∧ step s = .next t ∧ t.lastInstrTime = 104) :=
  ⟨⟨{ ticking 100 with hostCalls := [.tick 103] }, _, rfl, rfl, rfl, by decide⟩,
   ⟨{ ticking 100 with hostCalls := [.tick 104] }, _, rfl, rfl, rfl, by decide⟩⟩

/-- InstructionsNeedSpacedTicks, second clause: two instructions four milliseconds apart. -/
theorem witness_two_instructions :
    ∃ s t, GateOpens 104 s ∧ hostCall (.tick 104) s = .next t ∧ t.halted = false ∧ GateOpens 108 t :=
  ⟨ticking 100, _, ⟨rfl, rfl, by decide, by decide, by decide, rfl⟩, rfl, rfl,
   ⟨rfl, rfl, by decide, by decide, by decide, rfl⟩⟩

/-- PendingHostCallComesFirst. -/
theorem witness_pending : ∃ (s : State) (c : HostCall) (rest : List HostCall), s.hostCalls = c :: rest :=
  ⟨{ State.reset with hostCalls := [.tick 5, .read] }, _, _, rfl⟩

/-- FaultsArePrecise: an instruction that raises, and one that does not. -/
theorem witness_faults_precise :
    (∃ t, State.reset.halted = false ∧ exec .ret State.reset = .next t ∧ t.faultCode = 3) ∧
    (∃ t, State.reset.halted = false ∧ exec .cls State.reset = .next t ∧ t.faultCode = 0) :=
  ⟨⟨_, rfl, rfl, rfl⟩, ⟨_, rfl, rfl, rfl⟩⟩

/-- StoredWordIsFetchedNext, with the store at the end of memory. -/
theorem witness_stored_word :
    ∃ (s : State) (now : BitVec 64) (rest : List HostCall), Legal s ∧ s.hostCalls = .tick now :: rest ∧
      GateOpens now s ∧ s.pc.toNat + 3 = 0xFFF ∧ s.i = s.pc + 2 ∧
      decode (wordOfBytes (s.getV 0) (s.getV 1)) = some (.jp 0x20A) :=
  ⟨ticked { regs [(0, 0x12), (1, 0x0A)] with pc := 0xFFC, i := 0xFFE }, _, _, Legal.of_check (by decide), rfl,
   ⟨rfl, rfl, by decide, by decide, by decide, rfl⟩, rfl, rfl, by decide⟩

/-- CallPushesItsAddress and CallThenReturnResumes: an empty stack, one free entry, a full stack. -/
theorem witness_call :
    (∃ s, Legal s ∧ s.sp.toNat = 0) ∧ (∃ s, Legal s ∧ s.sp.toNat = 15) ∧ (∃ s, Legal s ∧ s.sp.toNat = 16) :=
  ⟨⟨State.reset, Legal.of_check (by decide), rfl⟩, ⟨{ State.reset with sp := 15 }, Legal.of_check (by decide), rfl⟩,
   ⟨{ State.reset with sp := 16 }, Legal.of_check (by decide), rfl⟩⟩

/-- ReturnPopsAndAddsTwo: one entry, a full stack, an empty stack. -/
theorem witness_return :
    (∃ s : State, 0 < s.sp.toNat ∧ s.sp.toNat = 1) ∧ (∃ s : State, 0 < s.sp.toNat ∧ s.sp.toNat = 16) ∧
    (∃ s : State, s.sp.toNat = 0) :=
  ⟨⟨{ State.reset with sp := 1 }, by decide, rfl⟩, ⟨{ State.reset with sp := 16 }, by decide, rfl⟩, ⟨State.reset, rfl⟩⟩

/-- The inner hypotheses of CallThenReturnResumes: a state between that kept SP and the stack. -/
theorem witness_call_then_return :
    ∃ s t u : State, s.sp.toNat = 15 ∧ exec (.call 0x300) s = .next t ∧ u.sp = t.sp ∧ u.stack = t.stack ∧ u.getV 0 ≠ t.getV 0 :=
  ⟨{ State.reset with sp := 15 }, _,
   { regs [(0, 1)] with sp := 16, stack := State.reset.stack.set 15 0x200 }, rfl, rfl, rfl, rfl, by decide⟩

/-- CallAndReturnOutsideInvariantRefused, at the least and the greatest such SP. -/
theorem witness_sp_outside :
    (∃ s : State, 16 < s.sp.toNat ∧ s.sp.toNat = 17) ∧ (∃ s : State, 16 < s.sp.toNat ∧ s.sp.toNat = 255) :=
  ⟨⟨{ State.reset with sp := 17 }, by decide, rfl⟩, ⟨{ State.reset with sp := 255 }, by decide, rfl⟩⟩

/-- The clauses of AddRegistersCarries and SubtractSetsNoBorrow for x ≠ F and of ShiftsMoveOneBit in both modes. -/
theorem witness_alu :
    (0x0#4 ≠ vF) ∧ (∃ (s : State) (src : Byte), src = (if s.params.shiftQuirk = .legacy then s.getV 1 else s.getV 0) ∧ src = 0x01) ∧
    (∃ (s : State) (src : Byte), src = (if s.params.shiftQuirk = .legacy then s.getV 1 else s.getV 0) ∧ src = 0xFE) :=
  ⟨by decide, ⟨regs [(0, 0x01), (1, 0xFE)], _, rfl, by decide⟩,
   ⟨{ regs [(0, 0x01), (1, 0xFE)] with params := legacy }, _, rfl, by decide⟩⟩

/-- BcdStoresDigits, at the last address it can store to. -/
theorem witness_bcd : ∃ s, Legal s ∧ s.i.toNat + 2 = 0xFFF ∧ s.getV 0 = 255 :=
  ⟨{ regs [(0, 255)] with i := 0xFFD }, Legal.of_check (by decide), rfl, by decide⟩

/-- StoreRegistersWritesRange, LoadRegistersReadsRange, StoreThenLoadRestores: all sixteen registers at the end of
memory, and one register at its last byte. -/
theorem witness_transfer :
    (∃ s, Legal s ∧ s.i.toNat + (0xF#4).toNat = 0xFFF) ∧ (∃ s, Legal s ∧ s.i.toNat + (0x0#4).toNat = 0xFFF) :=
  ⟨⟨{ State.reset with i := 0xFF0 }, Legal.of_check (by decide), rfl⟩,
   ⟨{ State.reset with i := 0xFFF }, Legal.of_check (by decide), rfl⟩⟩

/-- The inner hypotheses of StoreThenLoadRestores: a state between that kept I, memory and the parameters. -/
theorem witness_store_then_load :
    ∃ s t u : State, Legal s ∧ s.i.toNat + (1#4).toNat ≤ 0xFFF ∧ exec (.ldMemVx 1) s = .next t ∧ u.i = t.i ∧ u.mem = t.mem ∧
      u.params = t.params ∧ u.getV 0 ≠ t.getV 0 :=
  ⟨{ regs [(0, 7)] with i := 0x400 }, _, { State.reset with i := 0x400, mem := [(0x400, 7)] }, Legal.of_check (by decide),
   by decide, rfl, rfl, rfl, rfl, by decide⟩

/-- TransfersOutOfRangeFault: each clause one byte past the end. -/
theorem witness_transfer_fault :
    (∃ s : State, s.i.toNat + 2 = 0x1000) ∧ (∃ s : State, s.i.toNat + (0xF#4).toNat = 0x1000) :=
  ⟨⟨{ State.reset with i := 0xFFE }, rfl⟩, ⟨{ State.reset with i := 0xFF1 }, rfl⟩⟩

/-- DrawXorsSprite and DrawTwiceRestoresDisplay: a sprite that fits with its last set bit on pixel 2047, some of its pixels
lit and some not. -/
theorem witness_draw :
    ∃ s, SpriteFits s 0 1 1 ∧ (0#4 ≠ vF) ∧ (1#4 ≠ vF) ∧
      (∃ r < 1, ∃ c < 8, spriteBit s r c = true ∧ spritePixel s 0 1 r c = 2047) ∧
      (∃ r < 1, ∃ c < 8, spriteBit s r c = true ∧ Display.pixel s.disp (spritePixel s 0 1 r c) = true) ∧
      (∃ r < 1, ∃ c < 8, spriteBit s r c = true ∧ Display.pixel s.disp (spritePixel s 0 1 r c) = false) :=
  ⟨{ regs [(0, 60), (1, 31)] with disp := 1#2048 <<< 2044 }, by unfold SpriteFits; decide +kernel, by decide +kernel, by decide +kernel,
   ⟨0, by decide +kernel, 3, by decide +kernel, by decide +kernel, by decide +kernel⟩, ⟨0, by decide +kernel, 0, by decide +kernel, by decide +kernel, by decide +kernel⟩,
   ⟨0, by decide +kernel, 3, by decide +kernel, by decide +kernel, by decide +kernel⟩⟩

/-- The clauses of DrawXorsSprite and DrawTwiceRestoresDisplay where no set bit meets a lit pixel, and where every one
does. -/
theorem witness_draw_other_clauses :
    (∃ s, SpriteFits s 0 1 1 ∧
      ¬ ∃ r < 1, ∃ c < 8, spriteBit s r c = true ∧ Display.pixel s.disp (spritePixel s 0 1 r c) = true) ∧
    (∃ s, SpriteFits s 0 1 1 ∧
      ¬ ∃ r < 1, ∃ c < 8, spriteBit s r c = true ∧ Display.pixel s.disp (spritePixel s 0 1 r c) = false) :=
  ⟨⟨regs [(0, 60), (1, 31)], by unfold SpriteFits; decide +kernel, by decide +kernel⟩,
   ⟨{ regs [(0, 60), (1, 31)] with disp := 0xF#2048 <<< 2044 }, by unfold SpriteFits; decide +kernel, by decide +kernel⟩⟩

/-- An empty sprite fits anywhere. -/
theorem witness_draw_empty : ∃ s, SpriteFits s 0 1 0 ∧ s.i = 0xFFFF :=
  ⟨{ State.reset with i := 0xFFFF }, by unfold SpriteFits; decide +kernel, rfl⟩

/-- DrawOutOfRangeFaults: its second row is past memory, and its second row has a bit on index 2048. -/
theorem witness_draw_fault :
    (∃ s : State, 1 < (2#4).toNat ∧
      (∀ q < 1, s.i.toNat + q ≤ 0xFFF ∧ ∀ c < 8, spriteBit s q c = true → spritePixel s 0 1 q c ≤ 2047) ∧
      s.i.toNat + 1 = 0x1000) ∧
    (∃ s : State, 1 < (2#4).toNat ∧
      (∀ q < 1, s.i.toNat + q ≤ 0xFFF ∧ ∀ c < 8, spriteBit s q c = true → spritePixel s 0 1 q c ≤ 2047) ∧
      s.i.toNat + 1 ≤ 0xFFF ∧ ∃ c < 8, spriteBit s 1 c = true ∧ spritePixel s 0 1 1 c = 2048) :=
  ⟨⟨{ State.reset with i := 0xFFF }, by decide, by decide, rfl⟩,
   ⟨regs [(0, 0), (1, 31)], by decide, by decide, by decide, 0, by decide, by decide, by decide⟩⟩

/-- SkipOnKey at key 15, pressed and not; KeyIndexOutOfRangeFaults at 16 and 255. -/
theorem witness_keys :
    (∃ s, (s.getV 0).toNat = 15 ∧ keyAt s 15 = true) ∧ (∃ s, (s.getV 0).toNat = 15 ∧ keyAt s 15 = false) ∧
    (∃ s : State, 15 < (s.getV 0).toNat ∧ s.getV 0 = 16) ∧ (∃ s : State, 15 < (s.getV 0).toNat ∧ s.getV 0 = 255) :=
  ⟨⟨{ regs [(0, 15)] with key := State.reset.key.set 15 true }, by decide, by decide⟩,
   ⟨regs [(0, 15)], by decide, by decide⟩, ⟨regs [(0, 16)], by decide, by decide⟩,
   ⟨regs [(0, 255)], by decide, by decide⟩⟩

/-- KeyWaitHoldsUntilKeyDown, with VF as the register that waits and its last key. -/
theorem witness_key_wait : ∃ s t, s.halted = false ∧ exec (.ldVxK 0xF) s = .next t ∧ t.wait = some 0xF ∧ 15 < 16 :=
  ⟨State.reset, _, rfl, rfl, rfl, by decide⟩

/-- FirstTickOnlyInitialises: a halted machine, and one that has not been ticked. -/
theorem witness_first_tick :
    (∃ s, Legal s ∧ s.halted = true) ∧ (∃ s, Legal s ∧ s.halted = false ∧ s.started = false) :=
  ⟨⟨{ State.reset with halted := true, faultCode := 1 }, Legal.of_check (by decide), rfl⟩,
   ⟨State.reset, Legal.of_check (by decide), rfl, rfl⟩⟩

/-- TickRunsGatesInOrder, first clause: exactly the gap, and a key wait. -/
theorem witness_tick_no_instruction :
    (∃ (now : BitVec 64) (s : State), s.halted = false ∧ s.started = true ∧ s.lastInstrTime.toNat ≤ now.toNat ∧
      s.lastTimerTime.toNat ≤ now.toNat ∧ now.toNat - s.lastInstrTime.toNat = s.params.instrGapMs) ∧
    (∃ (now : BitVec 64) (s : State), s.halted = false ∧ s.started = true ∧ s.lastInstrTime.toNat ≤ now.toNat ∧
      s.lastTimerTime.toNat ≤ now.toNat ∧ s.wait ≠ none ∧ now.toNat - s.lastTimerTime.toNat > s.params.timerGapMs) :=
  ⟨⟨103, ticking 100, rfl, rfl, by decide, by decide, rfl⟩,
   ⟨200, { ticking 0 with wait := some 3 }, rfl, rfl, by decide, by decide, by decide, by decide⟩⟩

/-- TickRunsGatesInOrder, second clause: the timer gate at its gap and one millisecond over it. -/
theorem witness_tick_instruction :
    (∃ s t, GateOpens 116 s ∧ cycle s = .next t ∧ t.halted = false ∧
      (116 : BitVec 64).toNat - t.lastTimerTime.toNat = t.params.timerGapMs) ∧
    (∃ s t, GateOpens 117 s ∧ cycle s = .next t ∧ t.halted = false ∧
      (117 : BitVec 64).toNat - t.lastTimerTime.toNat = t.params.timerGapMs + 1) :=
  ⟨⟨ticking 100, _, ⟨rfl, rfl, by decide, by decide, by decide, rfl⟩, rfl, rfl, rfl⟩,
   ⟨ticking 100, _, ⟨rfl, rfl, by decide, by decide, by decide, rfl⟩, rfl, rfl, rfl⟩⟩

/-- FaultEndsTick, with a timer that would fall. -/
theorem witness_fault_ends_tick :
    ∃ s t, GateOpens 20 s ∧ cycle s = .next t ∧ t.halted = true ∧ s.dt = 4 :=
  ⟨{ State.reset with started := true, dt := 4 }, _, ⟨rfl, rfl, by decide, by decide, by decide, rfl⟩, rfl, rfl, rfl⟩

/-- BrokenHostContractRefused: a time below each gate time, and the first key index out of range. -/
theorem witness_broken_contract :
    (∃ (now : BitVec 64) (s : State), s.halted = false ∧ s.started = true ∧ now.toNat < s.lastInstrTime.toNat) ∧
    (∃ (now : BitVec 64) (s : State), s.halted = false ∧ s.started = true ∧ ¬ now.toNat < s.lastInstrTime.toNat ∧
      now.toNat < s.lastTimerTime.toNat) ∧ 15 < 16 :=
  ⟨⟨99, ticking 100, rfl, rfl, by decide⟩,
   ⟨99, { ticking 100 with lastInstrTime := 50 }, rfl, rfl, by decide, by decide⟩, by decide⟩

/-- KeyDownSetsKeyAndEndsWait, at key 15: no wait, halted, a wait that ends. -/
theorem witness_key_down :
    (15 ≤ 15) ∧ (∃ s, Legal s ∧ s.wait = none) ∧ (∃ s, Legal s ∧ s.halted = true) ∧
    (∃ s x, Legal s ∧ s.wait = some x ∧ s.halted = false) :=
  ⟨by decide, ⟨State.reset, Legal.of_check (by decide), rfl⟩,
   ⟨{ State.reset with halted := true, faultCode := 1 }, Legal.of_check (by decide), rfl⟩,
   ⟨{ State.reset with wait := some 0xF }, _, Legal.of_check (by decide), rfl, rfl⟩⟩

/-- KeyUpOnlyClearsKey, at key 15. -/
theorem witness_key_up : ∃ (k : Nat) (s : State), k ≤ 15 ∧ keyAt s k = true :=
  ⟨15, { State.reset with key := State.reset.key.set 15 true }, by decide, by decide⟩

/-- LoadProgramResetsAndCopies: the least length that fails and the greatest that is loaded, with a byte of it. -/
theorem witness_load :
    (∃ bytes : List Byte, 3584 < bytes.length ∧ bytes.length = 3585) ∧
    (∃ bytes : List Byte, bytes.length ≤ 3584 ∧ bytes.length = 3584 ∧ bytes[3583]? = some 0x12) :=
  ⟨⟨List.replicate 3585 0, by rw [List.length_replicate]; decide, List.length_replicate⟩,
   ⟨List.replicate 3584 0x12, by rw [List.length_replicate], List.length_replicate,
    by rw [List.getElem?_replicate, if_pos (by decide)]⟩⟩

/-- HaltedUntilResetOrLoad: a key event, a tick and a failed load of a halted machine. -/
theorem witness_halted :
    (∃ s t, Legal s ∧ s.halted = true ∧ hostCall (.keyDown 3) s = .next t) ∧
    (∃ s t, Legal s ∧ s.halted = true ∧ hostCall (.tick 3) s = .next t) ∧
    (∃ (s t : State) (bytes : List Byte), Legal s ∧ s.halted = true ∧ bytes.length = 3585 ∧
      hostCall (.loadProgram bytes) s = .next t) :=
  ⟨⟨{ State.reset with halted := true, faultCode := 1 }, _, Legal.of_check (by decide), rfl, rfl⟩,
   ⟨{ State.reset with halted := true, faultCode := 1 }, _, Legal.of_check (by decide), rfl, rfl⟩,
   ⟨{ State.reset with halted := true, faultCode := 1 }, _, List.replicate 3585 0, Legal.of_check (by decide), rfl,
    List.length_replicate, rfl⟩⟩

end Sys2Proof.Tests
end

section
/-! Fatal errors are precise (60_exceptions.md R231): a raised cause has a code of its own and writes the latch alone. -/

namespace Sys2Proof.Machine

/-- Every cause has a code of R230: 0 stands for no fault. -/
theorem Cause.code_range (c : Cause) : c.code ≠ 0 ∧ c.code.toNat ≤ 7 := by
  cases c <;> decide

/-- Settles O18, by the inversion of `exec`: an instruction raised one of the seven causes, or completed and kept the
latch. -/
theorem faultsArePrecise : Obligations.FaultsArePrecise := by
  intro i s t _ h
  rcases exec_cases h with ⟨c, hc, rfl⟩ | hdone
  · obtain ⟨hne, hle⟩ := c.code_range
    exact .inl ⟨c.code, hne, hle, raise_raised s (encode i) hc⟩
  · exact .inr hdone.latch

end Sys2Proof.Machine
end

section
/-! What a step, a cycle and each host transaction can answer, said once, and from it the two invariants of the state
section: a legal state stays legal (10_state.md R38) and the construction parameters never change (R37). -/

namespace Sys2Proof.Machine

/-! ### The shape of a step, of a cycle and of a load -/

/-- A step answers the same state where the host calls nothing, and otherwise the host's next transaction. -/
theorem step_cases {s t : State} (h : step s = .next t) :
    (s.hostCalls = [] ∧ t = s) ∨
      ∃ c rest, s.hostCalls = c :: rest ∧ hostCall c { s with hostCalls := rest } = .next t := by
  cases hc : s.hostCalls with
  | nil => rw [step_none hc] at h; cases h; exact .inl ⟨rfl, rfl⟩
  | cons c rest => exact .inr ⟨c, rest, rfl, step_pending hc ▸ h⟩

/-- A cycle that answers a next state raised a cause, which wrote the fault latch only, or completed an instruction. -/
theorem cycle_next_cases {s t : State} (h : cycle s = .next t) : (∃ c w, t = s.raise c w) ∨ Completes s t := by
  rcases cycle_cases s with hf | ⟨w, hd⟩ | ⟨i, hi⟩
  · rw [hf] at h; cases h; exact .inl ⟨_, _, rfl⟩
  · rw [hd] at h; cases h; exact .inl ⟨_, _, rfl⟩
  · rw [hi] at h
    rcases exec_cases h with ⟨c, -, hc⟩ | hdone
    · exact .inl ⟨c, encode i, hc⟩
    · exact .inr hdone

/-- The program copy writes no parameter. -/
@[simp] theorem copyBytes_params (s : State) (a : Nat) (bs : List Byte) : (s.copyBytes a bs).params = s.params := by
  induction bs generalizing a with
  | nil => rfl
  | cons b bs ih => exact ih (a + 1)

/-- A program that does not fit is not loaded; any other is copied into the reset machine (R282). -/
theorem hostLoad_cases (bytes : List Byte) (s : State) :
    (3584 < bytes.length ∧ hostLoad bytes s = (.romTooLarge, s)) ∨
      (bytes.length ≤ 3584 ∧ hostLoad bytes s = (.ok, (hostReset s).copyBytes 0x200 bytes)) := by
  by_cases h : bytes.length > 3584
  · exact .inl ⟨h, if_pos h⟩
  · exact .inr ⟨Nat.not_lt.mp h, if_neg h⟩

/-- A key press sets its key and ends the wait there is (R245). -/
theorem hostKeyDown_next {k : Nat} {s t : State} (h : hostKeyDown k s = .next t) :
    ∃ hk : k < 16, t = { s with key := s.key.set k true }.completeWait k := by
  unfold hostKeyDown at h
  split_ifs at h with hk
  cases h
  exact ⟨hk, rfl⟩

/-- A key release clears its key (R246). -/
theorem hostKeyUp_next {k : Nat} {s t : State} (h : hostKeyUp k s = .next t) :
    ∃ hk : k < 16, t = { s with key := s.key.set k false } := by
  unfold hostKeyUp at h
  split_ifs at h with hk
  cases h
  exact ⟨hk, rfl⟩

/-- A key ends a wait only of a machine that waits and is not halted (R233, R245). -/
theorem completeWait_cases (s : State) (k : Nat) :
    s.completeWait k = s ∨ ∃ x, s.wait = some x ∧ s.halted = false ∧
      s.completeWait k = { s.setV x (BitVec.ofNat 8 k) with wait := none }.next := by
  unfold State.completeWait
  cases hw : s.wait with
  | none => exact .inl rfl
  | some x =>
    by_cases hh : s.halted = true
    · exact .inl (if_pos hh)
    · exact .inr ⟨x, rfl, eq_false_of_ne_true hh, if_neg hh⟩

end Sys2Proof.Machine

namespace Sys2Proof

open Sys2Proof.Machine

/-! ### Legal states stay legal (R38) -/

/-- Legality does not look at the pending transactions. -/
theorem Legal.withCalls {s : State} (h : Legal s) (l : List HostCall) : Legal { s with hostCalls := l } :=
  ⟨h.sp_le, h.halted_iff, h.halted_wait, h.code_le, h.mem_wf⟩

/-- A cause raised while no key is waited for leaves a legal state: its code is one of R230. -/
theorem Legal.raise {s : State} (h : Legal s) (hw : s.wait = none) (c : Cause) (w : Word) : Legal (s.raise c w) :=
  ⟨h.sp_le, ⟨fun _ => c.code_range.1, fun _ => rfl⟩, fun _ => hw, c.code_range.2, h.mem_wf⟩

/-- An instruction that completes in a running machine leaves a legal state. -/
theorem Legal.completes {s t : State} (h : Legal s) (hrun : s.halted = false) (hdone : Completes s t) : Legal t := by
  obtain ⟨hhalt, hcode, -, -⟩ := hdone.latch
  refine ⟨hdone.sp_le h.sp_le, ?_, ?_, ?_, hdone.mem_wf h.mem_wf⟩
  · rw [hhalt, hcode]; exact h.halted_iff
  · rw [hhalt, hrun]; exact fun hf => absurd hf Bool.false_ne_true
  · rw [hcode]; exact h.code_le

/-- A cycle run while no key is waited for leaves a legal state. -/
theorem Legal.cycle {s t : State} (h : Legal s) (hrun : s.halted = false) (hw : s.wait = none)
    (hc : cycle s = .next t) : Legal t := by
  rcases cycle_next_cases hc with ⟨c, w, rfl⟩ | hdone
  · exact h.raise hw c w
  · exact h.completes hrun hdone

/-- The gate's state is in no clause of legality. -/
theorem Legal.withGate {s : State} (h : Legal s) (b : Bool) (i t : BitVec 64) :
    Legal { s with started := b, lastInstrTime := i, lastTimerTime := t } :=
  ⟨h.sp_le, h.halted_iff, h.halted_wait, h.code_le, h.mem_wf⟩

theorem Legal.timerGate {s : State} (h : Legal s) (now : BitVec 64) : Legal (timerGate now s) := by
  rw [timerGate_eq]
  exact ⟨h.sp_le, h.halted_iff, h.halted_wait, h.code_le, h.mem_wf⟩

theorem Legal.hostTick {now : BitVec 64} {s t : State} (h : Legal s) (ht : hostTick now s = .next t) : Legal t := by
  rcases hostTick_cases ht with ⟨-, rfl⟩ | ⟨-, -, rfl⟩ | ⟨hopen, u, hu, hend⟩ | ⟨-, -, -, rfl⟩
  · exact h
  · exact h.withGate true now now
  · have hlegal : Legal u := h.cycle hopen.running hopen.awake hu
    rcases hend with ⟨-, rfl⟩ | ⟨-, rfl⟩
    · exact hlegal
    · exact (hlegal.withGate u.started now u.lastTimerTime).timerGate now
  · exact h.timerGate now

/-- The key states are in no clause of legality. -/
theorem Legal.withKeys {s : State} (h : Legal s) (k : Vector Bool 16) : Legal { s with key := k } :=
  ⟨h.sp_le, h.halted_iff, h.halted_wait, h.code_le, h.mem_wf⟩

theorem Legal.completeWait {s : State} (h : Legal s) (k : Nat) : Legal (s.completeWait k) := by
  rcases completeWait_cases s k with heq | ⟨x, -, -, heq⟩
  · rw [heq]; exact h
  · rw [heq]; exact ⟨h.sp_le, h.halted_iff, fun _ => rfl, h.code_le, h.mem_wf⟩

/-- `reset()` leaves a legal state whatever it is called in. -/
theorem Legal.hostReset (s : State) : Legal (hostReset s) :=
  ⟨Nat.zero_le _, ⟨fun h => absurd h Bool.false_ne_true, fun h => absurd rfl h⟩, fun _ => rfl, Nat.zero_le _, rfl⟩

/-- A program that fits is copied below the end of memory, so the memory keeps its form. -/
theorem Legal.hostLoad {s : State} (h : Legal s) (bytes : List Byte) : Legal (hostLoad bytes s).2 := by
  rcases hostLoad_cases bytes s with ⟨-, heq⟩ | ⟨hlen, heq⟩
  · rw [heq]; exact h
  · have hr := Legal.hostReset s
    obtain ⟨m, hm, hwf, -, -⟩ := copyBytes_ok (a := 0x200) (bs := bytes) (by omega) hr.mem_wf
    rw [heq, hm]
    exact ⟨hr.sp_le, hr.halted_iff, hr.halted_wait, hr.code_le, hwf⟩

/-- Every host transaction keeps a legal state legal. -/
theorem Legal.hostCall {c : HostCall} {s t : State} (h : Legal s) (hc : hostCall c s = .next t) : Legal t := by
  cases c with
  | reset => cases hc; exact Legal.hostReset s
  | loadProgram bytes => cases hc; exact h.hostLoad bytes
  | tick now => exact h.hostTick hc
  | keyDown k =>
    obtain ⟨_, rfl⟩ := hostKeyDown_next hc
    exact (h.withKeys _).completeWait k
  | keyUp k =>
    obtain ⟨_, rfl⟩ := hostKeyUp_next hc
    exact h.withKeys _
  | clearDirty => cases hc; exact ⟨h.sp_le, h.halted_iff, h.halted_wait, h.code_le, h.mem_wf⟩
  | read => cases hc; exact h

end Sys2Proof

namespace Sys2Proof.Machine

/-- Settles O4: the invariants hold through each host transaction, a tick's instruction among them. -/
theorem stepKeepsLegal : Obligations.StepKeepsLegal := by
  intro s t hs h
  rcases step_cases h with ⟨-, rfl⟩ | ⟨c, rest, -, hcall⟩
  · exact hs
  · exact (hs.withCalls rest).hostCall hcall

/-- Settles O3: the reset state is what `reset()` leaves of it. -/
theorem resetIsLegal : Obligations.ResetIsLegal := Legal.hostReset State.reset

/-! ### The parameters never change (R37) -/

theorem cycle_params {s t : State} (h : cycle s = .next t) : t.params = s.params := by
  rcases cycle_next_cases h with ⟨c, w, rfl⟩ | hdone
  · rfl
  · exact hdone.params

@[simp] theorem timerGate_params (now : BitVec 64) (s : State) : (timerGate now s).params = s.params := by
  rw [timerGate_eq]

theorem hostTick_params {now : BitVec 64} {s t : State} (h : hostTick now s = .next t) : t.params = s.params := by
  rcases hostTick_cases h with ⟨-, rfl⟩ | ⟨-, -, rfl⟩ | ⟨-, u, hu, ⟨-, rfl⟩ | ⟨-, rfl⟩⟩ | ⟨-, -, -, rfl⟩
  · rfl
  · rfl
  · exact cycle_params hu
  · have hparams := cycle_params hu
    exact (timerGate_params ..).trans hparams
  · exact timerGate_params ..

@[simp] theorem completeWait_params (s : State) (k : Nat) : (s.completeWait k).params = s.params := by
  rcases completeWait_cases s k with heq | ⟨x, -, -, heq⟩
  · rw [heq]
  · rw [heq]; rfl

@[simp] theorem hostLoad_params (bytes : List Byte) (s : State) : (hostLoad bytes s).2.params = s.params := by
  rcases hostLoad_cases bytes s with ⟨-, heq⟩ | ⟨-, heq⟩
  · rw [heq]
  · rw [heq]; exact copyBytes_params ..

/-- No host transaction changes the parameters, `reset()` among them. -/
theorem hostCall_params {c : HostCall} {s t : State} (h : hostCall c s = .next t) : t.params = s.params := by
  cases c with
  | reset => cases h; rfl
  | loadProgram bytes => cases h; exact hostLoad_params bytes s
  | tick now => exact hostTick_params h
  | keyDown k =>
    obtain ⟨_, rfl⟩ := hostKeyDown_next h
    exact completeWait_params ..
  | keyUp k =>
    obtain ⟨_, rfl⟩ := hostKeyUp_next h
    rfl
  | clearDirty => cases h; rfl
  | read => cases h; rfl

/-- Settles O5: a step is at most one host transaction, and none changes the parameters. -/
theorem parametersNeverChange : Obligations.ParametersNeverChange := by
  intro s t h
  rcases step_cases h with ⟨-, rfl⟩ | ⟨c, rest, -, hcall⟩
  · rfl
  · have hparams := hostCall_params hcall
    exact hparams

end Sys2Proof.Machine
end

section
/-! CALL and RET by the cases of the stack pointer (40_cycle_and_flow.md R104, R106), and what an instruction that ends in
`finish` can answer. -/

namespace Sys2Proof.Machine

/-! ### RET and CALL, an equation per case -/

theorem exec_ret_empty {s : State} (h : s.sp = 0) : exec .ret s = .next (s.raise .stackUnderflow (encode .ret)) :=
  if_pos h

theorem exec_ret_pop {s : State} (h0 : s.sp ≠ 0) (h : s.sp.toNat - 1 < 16) :
    exec .ret s = .next ({ s with sp := s.sp - 1 }.jumpTo (s.stack[s.sp.toNat - 1] + 2)) :=
  (if_neg h0).trans (dif_pos h)

theorem exec_ret_outside {s : State} (h0 : s.sp ≠ 0) (h : ¬ s.sp.toNat - 1 < 16) :
    exec .ret s = .refused .stateOutsideModel :=
  (if_neg h0).trans (dif_neg h)

theorem exec_call_full {nnn : Addr12} {s : State} (h : s.sp = 16) :
    exec (.call nnn) s = .next (s.raise .stackOverflow (encode (.call nnn))) :=
  if_pos h

theorem exec_call_push {nnn : Addr12} {s : State} (h0 : s.sp ≠ 16) (h : s.sp.toNat < 16) :
    exec (.call nnn) s =
      .next ({ s with stack := s.stack.set s.sp.toNat s.pc, sp := s.sp + 1 }.jumpTo (addrOperand nnn)) :=
  (if_neg h0).trans (dif_pos h)

theorem exec_call_outside {nnn : Addr12} {s : State} (h0 : s.sp ≠ 16) (h : ¬ s.sp.toNat < 16) :
    exec (.call nnn) s = .refused .stateOutsideModel :=
  (if_neg h0).trans (dif_neg h)

/-- A RET that answers a next state found the stack empty and raised, or popped its top entry. -/
theorem exec_ret_cases {s t : State} (h : exec .ret s = .next t) :
    (s.sp = 0 ∧ t = s.raise .stackUnderflow (encode .ret)) ∨
      ∃ (_ : s.sp ≠ 0) (_ : s.sp.toNat - 1 < 16),
        t = { s with sp := s.sp - 1 }.jumpTo (s.stack[s.sp.toNat - 1] + 2) := by
  by_cases h0 : s.sp = 0
  · rw [exec_ret_empty h0] at h; cases h; exact .inl ⟨h0, rfl⟩
  · by_cases h1 : s.sp.toNat - 1 < 16
    · rw [exec_ret_pop h0 h1] at h; cases h; exact .inr ⟨h0, h1, rfl⟩
    · rw [exec_ret_outside h0 h1] at h; cases h

/-- A CALL that answers a next state found the stack full and raised, or pushed its own address. -/
theorem exec_call_cases {nnn : Addr12} {s t : State} (h : exec (.call nnn) s = .next t) :
    (s.sp = 16 ∧ t = s.raise .stackOverflow (encode (.call nnn))) ∨
      ∃ (_ : s.sp ≠ 16) (_ : s.sp.toNat < 16),
        t = { s with stack := s.stack.set s.sp.toNat s.pc, sp := s.sp + 1 }.jumpTo (addrOperand nnn) := by
  by_cases h0 : s.sp = 16
  · rw [exec_call_full h0] at h; cases h; exact .inl ⟨h0, rfl⟩
  · by_cases h1 : s.sp.toNat < 16
    · rw [exec_call_push h0 h1] at h; cases h; exact .inr ⟨h0, h1, rfl⟩
    · rw [exec_call_outside h0 h1] at h; cases h

/-- Settles O26: with SP above 16 neither the entry to push to nor the one to pop exists. -/
theorem callAndReturnOutsideInvariantRefused : Obligations.CallAndReturnOutsideInvariantRefused := by
  intro nnn s hsp
  have hfull : s.sp ≠ 16 := fun h => by rw [h] at hsp; exact absurd hsp (by decide)
  have hempty : s.sp ≠ 0 := fun h => by rw [h] at hsp; exact absurd hsp (by decide)
  exact ⟨exec_call_outside hfull (by omega), exec_ret_outside hempty (by omega)⟩

/-! ### Instructions that can raise on the way -/

/-- What an instruction answers whose computation may raise: the cause raised, or the state made of what it computed. -/
theorem finish_map_cases {α : Type} {s t : State} {w : Word} {e : Except Cause α} {f : α → State}
    (h : finish s w (e.map f) = .next t) :
    (∃ a, e = .ok a ∧ t = f a) ∨ ∃ c, e = .error c ∧ t = s.raise c w := by
  cases e with
  | ok a => cases h; exact .inl ⟨a, rfl, rfl⟩
  | error c => cases h; exact .inr ⟨c, rfl, rfl⟩

/-- A run of bytes that is written leaves all but memory. -/
theorem memWriteAll_eq {s u : State} {a : Nat} {bs : List Byte} (h : s.memWriteAll a bs = .ok u) :
    ∃ m, u = { s with mem := m } := by
  rcases memWriteAll_cases s a bs with he | ⟨m, hm, -⟩
  · rw [he] at h; cases h
  · rw [hm] at h; cases h; exact ⟨m, rfl⟩

/-- Registers that are stored leave all but memory. -/
theorem storeRegs_eq {s u : State} {base : Nat} {rs : List RegIdx} (h : State.storeRegs base rs s = .ok u) :
    ∃ m, u = { s with mem := m } := by
  rcases storeRegs_cases base rs s with he | ⟨m, hm, -⟩
  · rw [he] at h; cases h
  · rw [hm] at h; cases h; exact ⟨m, rfl⟩

/-- Registers that are loaded leave all but the general registers, and of those the ones not in the list. -/
theorem loadRegs_eq {s u : State} {base : Nat} {rs : List RegIdx} (h : State.loadRegs base rs s = .ok u) :
    ∃ v, u = { s with v := v } ∧ ∀ r, r ∉ rs → State.getV { s with v := v } r = s.getV r := by
  by_cases hin : ∀ r ∈ rs, base + r.toNat ≤ 0xFFF
  · obtain ⟨v, hv, hregs⟩ := loadRegs_ok (s := s) hin
    rw [hv] at h
    cases h
    exact ⟨v, rfl, fun r hr => (hregs r).trans (if_neg hr)⟩
  · push Not at hin
    rw [loadRegs_error hin] at h
    cases h

end Sys2Proof.Machine
end

section
/-! The access matrix (10_state.md R40): what an instruction is not named as a writer of, it leaves as it was. -/

namespace Sys2Proof.Machine

/-- The next state `t` of the instruction differs from `s` only in pieces of state that the access matrix (R40) has it
write. A clause left out of a proof is one whose piece of state `t` visibly takes from `s`. -/
structure WritesOnlyNamed (i : Instr) (s t : State) : Prop where
  regs : ∀ r, ¬ i.namesDest r → ¬ (r = vF ∧ i.writesFlag) → t.getV r = s.getV r := by intros; rfl
  index : (∀ a, i ≠ .ldI a) ∧ (∀ x, i ≠ .addIVx x) ∧ (∀ x, i ≠ .ldFVx x) → t.i = s.i := by intro; rfl
  sp : (∀ a, i ≠ .call a) ∧ i ≠ .ret → t.sp = s.sp := by intro; rfl
  stack : (∀ a, i ≠ .call a) → t.stack = s.stack := by intro; rfl
  delay : (∀ x, i ≠ .ldDtVx x) → t.dt = s.dt := by intro; rfl
  sound : (∀ x, i ≠ .ldStVx x) → t.st = s.st := by intro; rfl
  wait : (∀ x, i ≠ .ldVxK x) → t.wait = s.wait := by intro; rfl
  keys : t.key = s.key := by rfl
  display : i ≠ .cls ∧ (∀ x y n, i ≠ .drw x y n) → t.disp = s.disp ∧ t.dirty = s.dirty := by intro; exact ⟨rfl, rfl⟩
  memory : (∀ x, i ≠ .ldBVx x) ∧ (∀ x, i ≠ .ldMemVx x) → ∀ a, t.readByte a = s.readByte a := by intros; rfl
  gate : Part.Same s t .gate := by exact ⟨rfl, rfl, rfl⟩

theorem getV_setV_of_ne {s : State} {x r : RegIdx} {b : Byte} (h : r ≠ x) : (s.setV x b).getV r = s.getV r := by
  rw [getV_setV, if_neg h]

theorem getV_setFlagThen_of_ne {s : State} {f : Bool} {x r : RegIdx} {b : Byte} (hx : r ≠ x) (hf : r ≠ vF) :
    (s.setFlagThen f x b).getV r = s.getV r := by
  rw [getV_setFlagThen, if_neg hx, if_neg hf]

/-- A raised cause writes the fault latch, which is in no row of the matrix. -/
theorem WritesOnlyNamed.raise (i : Instr) (s : State) (c : Cause) (w : Word) : WritesOnlyNamed i s (s.raise c w) := {}

/-- A skip writes PC alone. -/
theorem WritesOnlyNamed.skipIf (i : Instr) (s : State) (c : Bool) : WritesOnlyNamed i s (s.skipIf c) := by
  cases c with
  | true => exact {}
  | false => exact {}

/-- Every instruction writes only what the matrix has it write. -/
theorem exec_writesOnlyNamed {i : Instr} {s t : State} (h : exec i s = .next t) : WritesOnlyNamed i s t := by
  cases i with
  -- control flow: PC, and the stack of CALL and RET
  | jp nnn | jpV0 nnn => cases h; exact {}
  | seImm x kk | sneImm x kk => cases h; exact .skipIf ..
  | seReg x y | sneReg x y => cases h; exact .skipIf ..
  | ret =>
    rcases exec_ret_cases h with ⟨-, rfl⟩ | ⟨-, -, rfl⟩
    · exact .raise ..
    · exact { sp := fun ⟨_, hne⟩ => absurd rfl hne }
  | call nnn =>
    rcases exec_call_cases h with ⟨-, rfl⟩ | ⟨-, -, rfl⟩
    · exact .raise ..
    · exact { sp := fun ⟨hne, _⟩ => absurd rfl (hne nnn), stack := fun hne => absurd rfl (hne nnn) }
  | skp x | sknp x =>
    rcases finish_map_cases h with ⟨down, -, rfl⟩ | ⟨c, -, rfl⟩
    · exact .skipIf ..
    · exact .raise ..
  -- one register, named as the destination
  | ldImm x kk | addImm x kk | rnd x kk => cases h; exact { regs := fun _ hr _ => getV_setV_of_ne hr }
  | ldReg x y | orReg x y | andReg x y | xorReg x y => cases h; exact { regs := fun _ hr _ => getV_setV_of_ne hr }
  | ldVxDt x => cases h; exact { regs := fun _ hr _ => getV_setV_of_ne hr }
  -- the destination and VF
  | addReg x y | sub x y | shr x y | subn x y | shl x y =>
    cases h
    exact { regs := fun _ hr hf => getV_setFlagThen_of_ne hr fun heq => hf ⟨heq, trivial⟩ }
  -- V0 to Vx
  | ldVxMem x =>
    rcases finish_map_cases h with ⟨u, hu, rfl⟩ | ⟨c, -, rfl⟩
    · obtain ⟨v, rfl, hv⟩ := loadRegs_eq hu
      exact { regs := fun r hr _ => hv r fun hmem => hr ((mem_regsUpTo x r).mp hmem) }
    · exact .raise ..
  -- the index register
  | ldI nnn => cases h; exact { index := fun ⟨hne, _, _⟩ => absurd rfl (hne nnn) }
  | addIVx x => cases h; exact { index := fun ⟨_, hne, _⟩ => absurd rfl (hne x) }
  | ldFVx x => cases h; exact { index := fun ⟨_, _, hne⟩ => absurd rfl (hne x) }
  -- memory
  | ldBVx x =>
    rcases finish_map_cases h with ⟨u, hu, rfl⟩ | ⟨c, -, rfl⟩
    · obtain ⟨m, rfl⟩ := memWriteAll_eq hu
      exact { memory := fun ⟨hne, _⟩ => absurd rfl (hne x) }
    · exact .raise ..
  | ldMemVx x =>
    rcases finish_map_cases h with ⟨u, hu, rfl⟩ | ⟨c, -, rfl⟩
    · obtain ⟨m, rfl⟩ := storeRegs_eq hu
      exact { memory := fun ⟨_, hne⟩ => absurd rfl (hne x) }
    · exact .raise ..
  -- the display
  | cls => cases h; exact { display := fun ⟨hne, _⟩ => absurd rfl hne }
  | drw x y n =>
    rcases finish_map_cases h with ⟨d, -, rfl⟩ | ⟨c, -, rfl⟩
    · exact { regs := fun _ _ hf => getV_setV_of_ne fun heq => hf ⟨heq, trivial⟩
              display := fun ⟨_, hne⟩ => absurd rfl (hne x y n) }
    · exact .raise ..
  -- the key wait and the timers
  | ldVxK x => cases h; exact { wait := fun hne => absurd rfl (hne x) }
  | ldDtVx x => cases h; exact { delay := fun hne => absurd rfl (hne x) }
  | ldStVx x => cases h; exact { sound := fun hne => absurd rfl (hne x) }

/-- Settles O19, clause by clause of the access matrix. -/
theorem onlyNamedInstructionsWrite : Obligations.OnlyNamedInstructionsWrite := by
  intro i s t h
  obtain ⟨regs, index, sp, stack, delay, sound, wait, keys, display, memory, gate⟩ := exec_writesOnlyNamed h
  exact ⟨regs, index, sp, stack, delay, sound, wait, keys, display, memory, gate⟩

end Sys2Proof.Machine
end

section
/-! The sound timer and Dirty are read by no instruction (10_state.md R27, R31): the shared operations do not see them, so
two states that differ in them alone run to states that do. -/

namespace Sys2Proof.Machine

/-- The state with any other ST and Dirty. -/
def State.withSoundDirty (s : State) (b : Byte) (d : Bool) : State := { s with st := b, dirty := d }

section
variable {s : State} {b : Byte} {d : Bool}

theorem sameButSoundAndDirty_withSoundDirty (t : State) : SameButSoundAndDirty t (t.withSoundDirty b d) := rfl

/-! ### What the shared operations see -/

theorem memWriteAll_withSoundDirty (a : Nat) (bs : List Byte) :
    (s.withSoundDirty b d).memWriteAll a bs = (s.memWriteAll a bs).map (·.withSoundDirty b d) := by
  induction bs generalizing s a with
  | nil => rfl
  | cons c bs ih =>
    by_cases ha : a ≤ 0xFFF
    · simp only [State.memWriteAll, memWrite_ok c ha]
      exact ih (s := s.writeByte a c) (a + 1)
    · simp only [State.memWriteAll, memWrite_error c (Nat.not_le.mp ha)]
      rfl

theorem storeRegs_withSoundDirty (base : Nat) (rs : List RegIdx) :
    State.storeRegs base rs (s.withSoundDirty b d) = (State.storeRegs base rs s).map (·.withSoundDirty b d) := by
  induction rs generalizing s with
  | nil => rfl
  | cons r rs ih =>
    by_cases ha : base + r.toNat ≤ 0xFFF
    · simp only [State.storeRegs, memWrite_ok _ ha]
      exact ih (s := s.writeByte (base + r.toNat) (s.getV r))
    · simp only [State.storeRegs, memWrite_error _ (Nat.not_le.mp ha)]
      rfl

theorem loadRegs_withSoundDirty (base : Nat) (rs : List RegIdx) :
    State.loadRegs base rs (s.withSoundDirty b d) = (State.loadRegs base rs s).map (·.withSoundDirty b d) := by
  induction rs generalizing s with
  | nil => rfl
  | cons r rs ih =>
    by_cases ha : base + r.toNat ≤ 0xFFF
    · simp only [State.loadRegs, memRead_ok ha]
      exact ih (s := s.setV r (s.readByte (base + r.toNat)))
    · simp only [State.loadRegs, memRead_error (Nat.not_le.mp ha)]
      rfl

theorem drawRows_withSoundDirty (px py : Nat) (rs : List Nat) (c : Canvas) :
    drawRows (s.withSoundDirty b d) px py rs c = drawRows s px py rs c := by
  induction rs generalizing c with
  | nil => rfl
  | cons r rs ih => simp only [drawRows, ih]; rfl

theorem sameButSoundAndDirty_skipIf (c : Bool) : SameButSoundAndDirty (s.skipIf c) ((s.withSoundDirty b d).skipIf c) := by
  cases c with
  | true => rfl
  | false => rfl

/-! ### The end of an instruction -/

/-- The instruction's two runs compute the same, or raise the same cause. -/
theorem finish_unread {α : Type} {t : State} {w : Word} {e : Except Cause α} {f g : α → State}
    (hfg : ∀ a, SameButSoundAndDirty (f a) (g a)) (h : finish s w (e.map f) = .next t) :
    ∃ u, finish (s.withSoundDirty b d) w (e.map g) = .next u ∧ SameButSoundAndDirty t u := by
  cases e with
  | ok a => cases h; exact ⟨g a, rfl, hfg a⟩
  | error c => cases h; exact ⟨_, rfl, rfl⟩

/-- The same for an instruction that computes a state, which carries its ST and Dirty along, and goes to the next one. -/
theorem finish_next_unread {t : State} {w : Word} {e e' : Except Cause State}
    (he : e' = e.map (·.withSoundDirty b d)) (h : finish s w (e.map State.next) = .next t) :
    ∃ u, finish (s.withSoundDirty b d) w (e'.map State.next) = .next u ∧ SameButSoundAndDirty t u := by
  subst he
  cases e with
  | ok a => cases h; exact ⟨_, rfl, sameButSoundAndDirty_withSoundDirty a.next⟩
  | error c => cases h; exact ⟨_, rfl, rfl⟩

/-! ### The instructions -/

/-- No instruction reads ST or Dirty. -/
theorem exec_withSoundDirty {i : Instr} {t : State} (h : exec i s = .next t) :
    ∃ u, exec i (s.withSoundDirty b d) = .next u ∧ SameButSoundAndDirty t u := by
  cases i with
  | ret =>
    rcases exec_ret_cases h with ⟨h0, rfl⟩ | ⟨h0, h1, rfl⟩
    · exact ⟨_, exec_ret_empty h0, rfl⟩
    · exact ⟨_, exec_ret_pop (s := s.withSoundDirty b d) h0 h1, rfl⟩
  | call nnn =>
    rcases exec_call_cases h with ⟨h0, rfl⟩ | ⟨h0, h1, rfl⟩
    · exact ⟨_, exec_call_full h0, rfl⟩
    · exact ⟨_, exec_call_push (s := s.withSoundDirty b d) h0 h1, rfl⟩
  | seImm x kk | sneImm x kk => cases h; exact ⟨_, rfl, sameButSoundAndDirty_skipIf _⟩
  | seReg x y | sneReg x y => cases h; exact ⟨_, rfl, sameButSoundAndDirty_skipIf _⟩
  | skp x | sknp x => exact finish_unread (fun _ => sameButSoundAndDirty_skipIf _) h
  | drw x y n =>
    have hshow (c : Canvas) : SameButSoundAndDirty (s.showCanvas c) ((s.withSoundDirty b d).showCanvas c) := rfl
    have hrows := drawRows_withSoundDirty (s := s) (b := b) (d := d) (s.getV x).toNat (s.getV y).toNat (spriteRows n)
      (s.disp, false)
    obtain ⟨u, hu, hsame⟩ := finish_unread hshow h
    exact ⟨u, by rwa [← hrows] at hu, hsame⟩
  | ldBVx x => exact finish_next_unread (memWriteAll_withSoundDirty ..) h
  | ldMemVx x => exact finish_next_unread (storeRegs_withSoundDirty ..) h
  | ldVxMem x => exact finish_next_unread (loadRegs_withSoundDirty ..) h
  -- every other instruction answers one update of the state, in which ST and Dirty do not occur
  | _ => cases h; exact ⟨_, rfl, rfl⟩

end

/-- Settles O20, by the shared operations, none of which sees ST or Dirty. -/
theorem soundTimerAndDirtyAreUnread : Obligations.SoundTimerAndDirtyAreUnread :=
  fun _ _ _ _ _ h => exec_withSoundDirty h

end Sys2Proof.Machine
end

section
/-! The reset state (10_state.md R39, 70_reset_and_hazards.md R281): what a state shows that differs from it in memory, the
parameters and the model's own fields alone. -/

namespace Sys2Proof.Machine

/-- Any state that took all its reset values but memory, the parameters and the model's own fields. -/
theorem resetButMemory_of_eq {t : State} (h : t = { State.reset with
    mem := t.mem, params := t.params, rngDraws := t.rngDraws, hostCalls := t.hostCalls }) : ResetButMemory t := by
  rw [h]
  exact
    { regs := fun r => Vector.getElem_replicate r.isLt
      index := rfl
      pc := rfl
      sp := rfl
      stack := show ∀ j < 16, stackAt State.reset j = 0 by decide
      timers := ⟨rfl, rfl⟩
      keys := show ∀ k < 16, keyAt State.reset k = false by decide
      wait := rfl
      pixels := fun p _ => BitVec.getLsbD_zero
      dirty := rfl
      gate := ⟨rfl, rfl, rfl⟩
      latch := ⟨rfl, rfl, rfl, rfl⟩ }

/-- An address of memory that lists no byte reads as reset leaves it. -/
theorem resetByteIs_of_mem_nil {t : State} (h : t.mem = []) (a : Nat) : ResetByteIs t a := by
  have hread : t.readByte a = resetByte t.params.font a := by rw [State.readByte, h]; rfl
  exact ⟨fun hlt => hread.trans (dif_pos hlt), fun hge => hread.trans (dif_neg (Nat.not_lt.mpr hge))⟩

/-- Settles O1. -/
theorem resetLeavesResetValues : Obligations.ResetLeavesResetValues :=
  ⟨resetButMemory_of_eq rfl, resetByteIs_of_mem_nil rfl, rfl⟩

end Sys2Proof.Machine
end

section
/-! Memory as the instruction cycle sees it (20_memory.md R53 to R62): a fetch or a data transfer past the last byte raises
and writes the fault latch alone, and a byte that is stored is the byte the next fetch reads. -/

namespace Sys2Proof.Machine

/-! ### A tick that fires the instruction gate -/

/-- The step is then the cycle, on the state with the tick taken from the host's calls, and what follows it. -/
theorem step_opens {s : State} {now : BitVec 64} {rest : List HostCall} (hcalls : s.hostCalls = .tick now :: rest)
    (hopen : GateOpens now s) : step s = afterInstr now (cycle { s with hostCalls := rest }) :=
  (step_pending hcalls).trans (hostTick_opens (hopen.withCalls rest))

/-- The instruction whose bytes stand at PC and PC + 1 is the one the step executes. -/
theorem step_opens_legal {s : State} {now : BitVec 64} {rest : List HostCall} {i : Instr}
    (hcalls : s.hostCalls = .tick now :: rest) (hopen : GateOpens now s) (hpc : s.pc.toNat + 1 ≤ 0xFFF)
    (hdec : decode (wordOfBytes (s.readByte s.pc.toNat) (s.readByte (s.pc.toNat + 1))) = some i) :
    step s = afterInstr now (exec i { s with hostCalls := rest }) := by
  rw [step_opens hcalls hopen, cycle_legal (fetch_ok (s := { s with hostCalls := rest }) hpc) hdec]

/-- A raised cause ends the tick: neither gate time nor timers follow it (R234). -/
@[simp] theorem afterInstr_raise (now : BitVec 64) (s : State) (c : Cause) (w : Word) :
    afterInstr now (.next (s.raise c w)) = .next (s.raise c w) := rfl

/-! ### Raised causes -/

/-- Whatever the cause, it writes the fault latch alone. -/
theorem raise_frame (s : State) (c : Cause) (w : Word) : Frame [] [.latch] s (s.raise c w) where
  regs_same _ _ := rfl
  parts_same p hp := by
    cases p with
    | latch => exact absurd (List.mem_singleton.mpr rfl) hp
    | stack => exact ⟨rfl, rfl⟩
    | gate => exact ⟨rfl, rfl, rfl⟩
    | memory => exact fun _ => rfl
    | _ => rfl
  params_same := rfl
  calls_same := rfl

/-- A fetch that failed has no word to record: the latch holds 0x0000 (D37). -/
theorem raise_fetchOutOfRange_raised (s : State) (w : Word) : Raised s 4 0x0000 (s.raise .fetchOutOfRange w) :=
  ⟨raise_frame s .fetchOutOfRange w, rfl, rfl, rfl, rfl, rfl⟩

/-- An instruction whose computation raises answers the raise and none of its writes (R7, R231). -/
theorem finish_error_raised {α : Type} {s : State} {w : Word} {e : Except Cause α} {f : α → State} {c : Cause}
    (he : e = .error c) (hc : c ≠ .fetchOutOfRange) :
    ∃ t, finish s w (e.map f) = .next t ∧ Raised s c.code w t := by
  subst he
  exact ⟨s.raise c w, rfl, raise_raised s w hc⟩

/-- Settles O12: the cycle raises at the fetch, and the raise ends the tick. -/
theorem fetchOutOfRangeFaults : Obligations.FetchOutOfRangeFaults := by
  intro s now rest hcalls hopen hpc
  have hcycle := cycle_fetch_error (s := { s with hostCalls := rest }) hpc
  exact ⟨_, by rw [step_opens hcalls hopen, hcycle, afterInstr_raise], raise_fetchOutOfRange_raised _ 0⟩

/-! ### Transfers past the end of memory -/

/-- The last register of the range V0 to Vx has the highest address, so it is out of range when any is. -/
theorem regsUpTo_outOfRange {base : Nat} {x : RegIdx} (h : 0xFFF < base + x.toNat) :
    ∃ r ∈ regsUpTo x, 0xFFF < base + r.toNat :=
  ⟨x, (mem_regsUpTo x x).mpr le_rfl, h⟩

/-- Settles O43: each transfer's run of addresses leaves memory, which raises. -/
theorem transfersOutOfRangeFault : Obligations.TransfersOutOfRangeFault := by
  intro x s
  refine ⟨fun hbcd => ?_, fun hrange => ⟨?_, ?_⟩⟩
  · have hdigits : 0x1000 < s.addrOfI 0 + (bcdDigits (s.getV x)).length := Nat.succ_lt_succ hbcd
    exact finish_error_raised (memWriteAll_error (List.cons_ne_nil _ _) hdigits) (by decide)
  · exact finish_error_raised (storeRegs_error (regsUpTo_outOfRange hrange)) (by decide)
  · exact finish_error_raised (loadRegs_error (regsUpTo_outOfRange hrange)) (by decide)

/-! ### Stored bytes are fetched (R62) -/

/-- Fx55 whose addresses are inside memory stores V0 to Vx from I up and changes no other byte (R174). -/
theorem exec_ldMemVx_ok {x : RegIdx} {s : State} (hwf : Memory.wf s.params.font s.mem = true)
    (h : s.i.toNat + x.toNat ≤ 0xFFF) :
    ∃ m, exec (.ldMemVx x) s = .next { s with mem := m }.next ∧ Memory.wf s.params.font m = true ∧
      (∀ r : RegIdx, r.toNat ≤ x.toNat → Memory.read s.params.font m (s.i.toNat + r.toNat) = s.getV r) ∧
      ∀ a, (∀ r : RegIdx, r.toNat ≤ x.toNat → a ≠ s.i.toNat + r.toNat) →
        Memory.read s.params.font m a = s.readByte a := by
  have hin : ∀ r ∈ regsUpTo x, s.i.toNat + r.toNat ≤ 0xFFF := fun r hr =>
    (Nat.add_le_add_left ((mem_regsUpTo x r).mp hr) _).trans h
  obtain ⟨m, hm, hmwf, hstored, hkept⟩ := storeRegs_ok hwf hin
  refine ⟨m, ?_, hmwf, fun r hr => hstored r ((mem_regsUpTo x r).mpr hr),
    fun a ha => hkept a fun r hr => ha r ((mem_regsUpTo x r).mp hr)⟩
  exact congrArg (fun e => finish s (encode (.ldMemVx x)) (e.map State.next)) hm

/-- Settles O21: F155 leaves V0 and V1 at its own PC + 2 and PC + 3 and moves PC there, where the tick fetches them. -/
theorem storedWordIsFetchedNext : Obligations.StoredWordIsFetchedNext := by
  intro s j now rest hlegal hcalls hopen hpc hi hdec
  have hpc2 : (s.pc + 2).toNat = s.pc.toNat + 2 :=
    BitVec.toNat_add_of_lt (show s.pc.toNat + 2 < 2 ^ 16 by omega)
  have hfits : (s.pc + 2).toNat + 1 ≤ 0xFFF := by omega
  obtain ⟨m, hexec, -, hstored, -⟩ := exec_ldMemVx_ok (x := 1) hlegal.mem_wf (by rw [hi]; exact hfits)
  have hhi : Memory.read s.params.font m (s.pc + 2).toNat = s.getV 0 := hi ▸ hstored 0 (by decide)
  have hlo : Memory.read s.params.font m ((s.pc + 2).toNat + 1) = s.getV 1 := hi ▸ hstored 1 (by decide)
  have hopen' : GateOpens now { s with mem := m }.next :=
    ⟨hopen.running, hopen.started, hopen.instr_le, hopen.timer_le, hopen.gap, hopen.awake⟩
  rw [← hhi, ← hlo] at hdec
  exact ⟨_, hexec, step_opens_legal hcalls hopen' hfits hdec⟩

end Sys2Proof.Machine
end

section
/-! Decoder, encoder and opcode map agree (30_encoding.md R70 to R75): the decoder and the encoder are inverse to each
other on the legal words, and the legal words are those that fit a row of the map. -/

namespace Sys2Proof

/-! ### The decoder reads back what the encoder writes (R72, R74) -/

/-- Each format's fields read back as written, so the decoder's choices by `op`, `n` and `kk` find the instruction. -/
@[simp] theorem decode_encode (i : Instr) : decode (encode i) = some i := by
  cases i with
  | cls => rfl
  | ret => rfl
  | _ => simp [encode, decode, decodeAlu, decodeKey, decodeMisc]

/-- Settles O7: the two bytes of the encoding read back as its word, which decodes to the instruction. -/
theorem decodeOfEncode : Obligations.DecodeOfEncode := by
  intro i rest
  simp only [encodeBytes, bytesOfWord, List.cons_append, List.nil_append, decodeBytes, wordOfBytes_bytesOfWord,
    decode_encode]

/-! ### A word is its format with the top nibble it has (R71, R72) -/

theorem formatA_of_op {w : Word} {op : Nibble} (h : (fieldOp w).toNat = op.toNat) : formatA op (fieldNnn w) = w := by
  rw [← BitVec.eq_of_toNat_eq h, formatA_fields]

theorem formatXK_of_op {w : Word} {op : Nibble} (h : (fieldOp w).toNat = op.toNat) :
    formatXK op (fieldX w) (fieldKk w) = w := by
  rw [← BitVec.eq_of_toNat_eq h, formatXK_fields]

theorem formatXY_of_op {w : Word} {op : Nibble} (h : (fieldOp w).toNat = op.toNat) :
    formatXY op (fieldX w) (fieldY w) (fieldN w) = w := by
  rw [← BitVec.eq_of_toNat_eq h, formatXY_fields]

/-! ### Encoding what a word decodes to gives the word back (R74) -/

theorem encode_of_decodeAlu {x y : RegIdx} {n : Nibble} {i : Instr} (h : decodeAlu x y n = some i) :
    encode i = formatXY 0x8#4 x y n := by
  unfold decodeAlu at h
  split at h
  case h_10 => cases h
  all_goals
    next hn =>
      cases h
      exact congrArg (formatXY 0x8#4 x y) (BitVec.eq_of_toNat_eq hn.symm)

theorem encode_of_decodeKey {x : RegIdx} {kk : Byte} {i : Instr} (h : decodeKey x kk = some i) :
    encode i = formatXK 0xE#4 x kk := by
  unfold decodeKey at h
  split at h
  case h_3 => cases h
  all_goals
    next hkk =>
      cases h
      exact congrArg (formatXK 0xE#4 x) (BitVec.eq_of_toNat_eq hkk.symm)

theorem encode_of_decodeMisc {x : RegIdx} {kk : Byte} {i : Instr} (h : decodeMisc x kk = some i) :
    encode i = formatXK 0xF#4 x kk := by
  unfold decodeMisc at h
  split at h
  case h_10 => cases h
  all_goals
    next hkk =>
      cases h
      exact congrArg (formatXK 0xF#4 x) (BitVec.eq_of_toNat_eq hkk.symm)

/-- Settles O8, by the decoder's families: each takes the fields of one format, whose sum is the word. Its cases are the
top nibbles 0 to F in order, and the rest that no nibble is. -/
theorem encodeOfDecode : Obligations.EncodeOfDecode := by
  intro w i h
  unfold decode at h
  split at h
  case h_1 =>
    split at h
    · next hw => cases h; exact hw.symm
    · split at h
      · next hw => cases h; exact hw.symm
      · cases h
  case h_2 hop | h_3 hop | h_11 hop | h_12 hop => cases h; exact formatA_of_op hop
  case h_4 hop | h_5 hop | h_7 hop | h_8 hop | h_13 hop => cases h; exact formatXK_of_op hop
  case h_6 hop | h_10 hop =>
    split at h
    · next hn => cases h; exact (congrArg (formatXY _ _ _) hn).symm.trans (formatXY_of_op hop)
    · cases h
  case h_14 hop => cases h; exact formatXY_of_op hop
  case h_9 hop => exact (encode_of_decodeAlu h).trans (formatXY_of_op hop)
  case h_15 hop => exact (encode_of_decodeKey h).trans (formatXK_of_op hop)
  case h_16 hop => exact (encode_of_decodeMisc h).trans (formatXK_of_op hop)
  case h_17 => cases h

/-- Settles O6: each legal word is written out as an encoding, and the two illegal ones are evaluated. -/
theorem sampleWordsDecode : Obligations.SampleWordsDecode :=
  ⟨decode_encode .ret, decode_encode (.call 0x210), decode_encode (.ldImm 0xA 0x42), decode_encode (.shl 0x1 0x2),
    decode_encode (.ldI 0x2F0), decode_encode (.drw 0x3 0x3 0x5), decode_encode (.skp 0x5),
    decode_encode (.ldVxMem 0x1), by decide, by decide⟩

/-! ### The masks of the opcode map select fields (R71, R74) -/

theorem fieldOp_and (w u : Word) : fieldOp (w &&& u) = fieldOp w &&& fieldOp u := BitVec.extractLsb'_and

theorem fieldX_and (w u : Word) : fieldX (w &&& u) = fieldX w &&& fieldX u := BitVec.extractLsb'_and

theorem fieldY_and (w u : Word) : fieldY (w &&& u) = fieldY w &&& fieldY u := BitVec.extractLsb'_and

theorem fieldN_and (w u : Word) : fieldN (w &&& u) = fieldN w &&& fieldN u := BitVec.extractLsb'_and

theorem fieldKk_and (w u : Word) : fieldKk (w &&& u) = fieldKk w &&& fieldKk u := BitVec.extractLsb'_and

theorem word_eq_iff_fieldsXK {w u : Word} :
    w = u ↔ fieldOp w = fieldOp u ∧ fieldX w = fieldX u ∧ fieldKk w = fieldKk u :=
  ⟨fun h => h ▸ ⟨rfl, rfl, rfl⟩, fun ⟨hop, hx, hkk⟩ => by
    rw [← formatXK_fields w, hop, hx, hkk, formatXK_fields]⟩

theorem word_eq_iff_fieldsXY {w u : Word} :
    w = u ↔ fieldOp w = fieldOp u ∧ fieldX w = fieldX u ∧ fieldY w = fieldY u ∧ fieldN w = fieldN u :=
  ⟨fun h => h ▸ ⟨rfl, rfl, rfl, rfl⟩, fun ⟨hop, hx, hy, hn⟩ => by
    rw [← formatXY_fields w, hop, hx, hy, hn, formatXY_fields]⟩

/-- The mask of formats `A`, `XK` and `XYN`: a row fits by its top nibble. -/
theorem fits_op_iff {m : String} {p w : Word} (hp : p &&& 0xF000#16 = p) :
    OpcodeRow.fits ⟨m, 0xF000#16, p⟩ w = true ↔ (fieldOp w).toNat = p.toNat / 0x1000 := by
  have hmask : fieldOp 0xF000#16 = BitVec.allOnes 4 ∧ fieldX 0xF000#16 = 0 ∧ fieldKk 0xF000#16 = 0 := by decide
  rw [OpcodeRow.fits, beq_iff_eq, ← fieldOp_toNat, BitVec.toNat_inj, ← hp]
  simp [word_eq_iff_fieldsXK, fieldOp_and, fieldX_and, fieldKk_and, hmask, -BitVec.reduceAllOnes]

/-- The mask of format `XY`: a row fits by its top and its low nibble. -/
theorem fits_op_n_iff {m : String} {p w : Word} (hp : p &&& 0xF00F#16 = p) :
    OpcodeRow.fits ⟨m, 0xF00F#16, p⟩ w = true ↔
      (fieldOp w).toNat = p.toNat / 0x1000 ∧ (fieldN w).toNat = p.toNat % 0x10 := by
  have hmask : fieldOp 0xF00F#16 = BitVec.allOnes 4 ∧ fieldX 0xF00F#16 = 0 ∧ fieldY 0xF00F#16 = 0 ∧
    fieldN 0xF00F#16 = BitVec.allOnes 4 := by decide
  rw [OpcodeRow.fits, beq_iff_eq, ← fieldOp_toNat, ← fieldN_toNat, BitVec.toNat_inj, BitVec.toNat_inj, ← hp]
  simp [word_eq_iff_fieldsXY, fieldOp_and, fieldX_and, fieldY_and, fieldN_and, hmask, -BitVec.reduceAllOnes]

/-- The mask of format `X`: a row fits by its top nibble and its low byte. -/
theorem fits_op_kk_iff {m : String} {p w : Word} (hp : p &&& 0xF0FF#16 = p) :
    OpcodeRow.fits ⟨m, 0xF0FF#16, p⟩ w = true ↔
      (fieldOp w).toNat = p.toNat / 0x1000 ∧ (fieldKk w).toNat = p.toNat % 0x100 := by
  have hmask : fieldOp 0xF0FF#16 = BitVec.allOnes 4 ∧ fieldX 0xF0FF#16 = 0 ∧
    fieldKk 0xF0FF#16 = BitVec.allOnes 8 := by decide
  rw [OpcodeRow.fits, beq_iff_eq, ← fieldOp_toNat, ← fieldKk_toNat, BitVec.toNat_inj, BitVec.toNat_inj, ← hp]
  simp [word_eq_iff_fieldsXK, fieldOp_and, fieldX_and, fieldKk_and, hmask, -BitVec.reduceAllOnes]

/-- The mask of the fixed words: a row fits its own word. -/
theorem fits_word_iff {m : String} {p w : Word} :
    OpcodeRow.fits ⟨m, 0xFFFF#16, p⟩ w = true ↔ w.toNat = p.toNat := by
  rw [OpcodeRow.fits, beq_iff_eq, show 0xFFFF#16 = BitVec.allOnes 16 from rfl, BitVec.and_allOnes, BitVec.toNat_inj]

/-! ### The illegal words (R75) -/

theorem decodeAlu_eq_none_iff {x y : RegIdx} {n : Nibble} :
    decodeAlu x y n = none ↔ n.toNat ∈ [0x8, 0x9, 0xA, 0xB, 0xC, 0xD, 0xF] := by
  unfold decodeAlu
  split
  case h_10 =>
    have hlt := n.isLt
    simp only [imp_false, true_iff, List.mem_cons, List.not_mem_nil] at *
    omega
  all_goals simp [*]

theorem decodeKey_eq_none_iff {x : RegIdx} {kk : Byte} : decodeKey x kk = none ↔ kk.toNat ∉ [0x9E, 0xA1] := by
  unfold decodeKey
  split <;> simp_all

theorem decodeMisc_eq_none_iff {x : RegIdx} {kk : Byte} :
    decodeMisc x kk = none ↔ kk.toNat ∉ [0x07, 0x0A, 0x15, 0x18, 0x1E, 0x29, 0x33, 0x55, 0x65] := by
  unfold decodeMisc
  split <;> simp_all

/-- Settles O10, by the top nibble: it selects one clause of the map, or a family that decodes every word. -/
theorem illegalWordsByTopNibble : Obligations.IllegalWordsByTopNibble := by
  intro w
  simp only [← fieldOp_toNat, ← fieldN_toNat, ← fieldKk_toNat]
  unfold decode
  split
  case h_1 hop => simp [hop, ite_eq_iff, ← BitVec.toNat_inj]
  case h_6 hop | h_10 hop => simp [hop, ← BitVec.toNat_inj]
  case h_9 hop => simp [hop, decodeAlu_eq_none_iff]
  case h_15 hop => simp [hop, decodeKey_eq_none_iff]
  case h_16 hop => simp [hop, decodeMisc_eq_none_iff]
  case h_17 =>
    have hlt := (fieldOp w).isLt
    simp only [imp_false] at *
    exfalso
    omega
  all_goals next hop => simp [hop]

/-! ### The opcode map's rows and the instructions (R74, R75) -/

theorem row_mem_opcodeRows (i : Instr) : i.row ∈ opcodeRows := by
  cases i <;> (simp only [Instr.row]; decide)

/-- An instruction's encoding has in the fields its row fixes what the row's match has there. -/
theorem row_fits_encode (i : Instr) : i.row.fits (encode i) = true := by
  cases i <;> simp [Instr.row, encode, fits_op_iff, fits_op_n_iff, fits_op_kk_iff, fits_word_iff]

theorem row_fits_of_decode {w : Word} {i : Instr} (h : decode w = some i) : i.row.fits w = true :=
  encodeOfDecode w i h ▸ row_fits_encode i

theorem clash_of_ne {r q : OpcodeRow} (hr : r ∈ opcodeRows) (hq : q ∈ opcodeRows) (h : r ≠ q) : r.clash q = true :=
  have hsymm : Std.Symm (fun r q : OpcodeRow => r.clash q = true) :=
    ⟨fun r q h => by rwa [OpcodeRow.clash, BitVec.and_comm q.mask, bne_comm]⟩
  opcodeRows_disjoint.forall hr hq h

/-- At most one row of the map fits a word. -/
theorem row_eq_of_fits {w : Word} {r q : OpcodeRow} (hr : r ∈ opcodeRows) (hq : q ∈ opcodeRows)
    (hrw : r.fits w = true) (hqw : q.fits w = true) : r = q := by
  by_contra hne
  exact Bool.false_ne_true ((OpcodeRow.fits_of_clash (clash_of_ne hr hq hne) hrw).symm.trans hqw)

/-- The nibbles and low bytes of an illegal word (R75) are those of no row. -/
theorem not_fits_of_decode_eq_none {w : Word} (h : decode w = none) : ∀ r ∈ opcodeRows, r.fits w = false := by
  rw [illegalWordsByTopNibble] at h
  simp only [List.mem_cons, List.not_mem_nil, or_false] at h
  simp only [opcodeRows, controlRows, aluRows, middleRows, miscRows, List.forall_mem_append, List.forall_mem_cons,
    List.not_mem_nil, false_imp_iff, implies_true, and_true, ← Bool.not_eq_true, BitVec.ofNat_eq_ofNat,
    BitVec.reduceAnd, BitVec.reduceToNat, Nat.reduceDiv, Nat.reduceMod, fits_word_iff, fits_op_iff, fits_op_n_iff,
    fits_op_kk_iff, fieldOp_toNat, fieldN_toNat, fieldKk_toNat]
  omega

/-- Settles O9: a legal word is its instruction's encoding, which fits the instruction's row, and the rows are disjoint;
an illegal word fits none. -/
theorem decodeFollowsOpcodeMap : Obligations.DecodeFollowsOpcodeMap := by
  refine ⟨fun w i h => ⟨row_mem_opcodeRows i, fun r hr => ⟨fun hfit => ?_, ?_⟩⟩, fun w => not_fits_of_decode_eq_none⟩
  · exact row_eq_of_fits hr (row_mem_opcodeRows i) hfit (row_fits_of_decode h)
  · rintro rfl
    exact row_fits_of_decode h

end Sys2Proof

namespace Sys2Proof.Machine

/-! ### An illegal word at PC (R53, R231) -/

/-- The big-endian word of two bytes (R53). -/
theorem wordOfBytes_toNat (hi lo : Byte) : (wordOfBytes hi lo).toNat = hi.toNat * 256 + lo.toNat := by
  rw [wordOfBytes, BitVec.toNat_append, ← Nat.shiftLeft_add_eq_or_of_lt lo.isLt, Nat.shiftLeft_eq]

/-- Settles O13: the fetch answers the word, the decoder none, and the raise ends the tick. -/
theorem illegalWordFaults : Obligations.IllegalWordFaults := by
  intro s w now rest hcalls hopen hpc hw hdec
  have hword : wordOfBytes (s.readByte s.pc.toNat) (s.readByte (s.pc.toNat + 1)) = w :=
    BitVec.eq_of_toNat_eq ((wordOfBytes_toNat _ _).trans hw.symm)
  have hfetch : fetch { s with hostCalls := rest } = .ok w := hword ▸ fetch_ok hpc
  exact ⟨_, by rw [step_opens hcalls hopen, cycle_illegal hfetch hdec, afterInstr_raise],
    raise_raised (c := .unknownOpcode) _ w (by decide)⟩

end Sys2Proof.Machine
end

section
/-! The frame of an instruction that moves PC and, of the rest, at most the stack: the PC is in no part of the state, so
every rule of sequencing (40_cycle_and_flow.md R102) keeps whatever frame there was before it. -/

namespace Sys2Proof

open Sys2Proof.Machine

theorem Frame.refl (s : State) : Frame [] [] s s where
  regs_same _ _ := rfl
  parts_same p _ := by
    cases p with
    | stack => exact ⟨rfl, rfl⟩
    | gate => exact ⟨rfl, rfl, rfl⟩
    | latch => exact ⟨rfl, rfl, rfl, rfl⟩
    | memory => exact fun _ => rfl
    | _ => rfl
  params_same := rfl
  calls_same := rfl

section
variable {regs : List RegIdx} {parts : List Part} {s t : State}

theorem Frame.jumpTo (h : Frame regs parts s t) (target : Word) : Frame regs parts s (t.jumpTo target) where
  regs_same := h.regs_same
  parts_same p hp := by
    have hsame : Part.Same s t p := h.parts_same p hp
    cases p with
    | _ => exact hsame
  params_same := h.params_same
  calls_same := h.calls_same

theorem Frame.next (h : Frame regs parts s t) : Frame regs parts s t.next := h.jumpTo (t.pc + 2)

theorem Frame.skipIf (h : Frame regs parts s t) (c : Bool) : Frame regs parts s (t.skipIf c) := by
  cases c with
  | true => exact h.jumpTo (t.pc + 4)
  | false => exact h.next

end

/-- A new stack pointer and new entries are a change of the stack alone. -/
theorem Frame.withStack (s : State) (sp : Byte) (stack : Vector Word 16) :
    Frame [] [.stack] s { s with sp := sp, stack := stack } where
  regs_same _ _ := rfl
  parts_same p hp := by
    have hsame : Part.Same s s p := (Frame.refl s).parts_same p List.not_mem_nil
    cases p with
    | stack => exact absurd (List.mem_singleton.mpr rfl) hp
    | _ => exact hsame
  params_same := rfl
  calls_same := rfl

end Sys2Proof
end

section
/-! The decoded instruction of a tick, and the control-flow instructions (40_cycle_and_flow.md R100 to R111): jumps, skips,
CALL and RET. -/

namespace Sys2Proof.Machine

/-! ### The tick's instruction (R100, R101) -/

/-- What two bytes decode to is what their word decodes to (R70). -/
theorem decode_of_decodeBytes {hi lo : Byte} {rest : List Byte} {i : Instr}
    (h : decodeBytes [hi, lo] = .ok (i, rest)) : decode (wordOfBytes hi lo) = some i := by
  cases hd : decode (wordOfBytes hi lo) with
  | none => simp [decodeBytes, hd] at h
  | some j =>
    simp only [decodeBytes, hd, Except.ok.injEq, Prod.mk.injEq] at h
    exact congrArg some h.1

/-- Settles O11: the gate fires, so the tick is the cycle and what follows it, and the cycle finds the instruction at PC. -/
theorem stepRunsDecodedInstruction : Obligations.StepRunsDecodedInstruction :=
  fun _ _ _ _ hcalls hopen hpc hdec => step_opens_legal hcalls hopen hpc (decode_of_decodeBytes hdec)

/-! ### Jumps (R105, R111) -/

@[simp] theorem addrOperand_toNat (nnn : Addr12) : (addrOperand nnn).toNat = nnn.toNat :=
  BitVec.toNat_setWidth_of_le (by decide)

@[simp] theorem byteOperand_toNat (b : Byte) : (byteOperand b).toNat = b.toNat :=
  BitVec.toNat_setWidth_of_le (by decide)

/-- A 12-bit address and a byte add up to at most 0x10FE, which 16 bits hold (R111). -/
theorem addrOperand_add_byteOperand_toNat (nnn : Addr12) (b : Byte) :
    (addrOperand nnn + byteOperand b).toNat = nnn.toNat + b.toNat := by
  have hnnn : nnn.toNat < 2 ^ 12 := nnn.isLt
  have hb : b.toNat < 2 ^ 8 := b.isLt
  rw [BitVec.toNat_add_of_lt, addrOperand_toNat, byteOperand_toNat]
  rw [addrOperand_toNat, byteOperand_toNat]
  omega

/-- Settles O22. -/
theorem jumpSetsPc : Obligations.JumpSetsPc :=
  fun nnn s => ⟨s.jumpTo (addrOperand nnn), rfl, addrOperand_toNat nnn, (Frame.refl s).jumpTo _⟩

/-- Settles O29: the jump's target is a sum that does not wrap. -/
theorem jumpPlusV0 : Obligations.JumpPlusV0 :=
  fun nnn s => ⟨s.jumpTo (addrOperand nnn + byteOperand (s.getV 0)), rfl,
    addrOperand_add_byteOperand_toNat nnn (s.getV 0), (Frame.refl s).jumpTo _⟩

/-! ### Skips (R107 to R110) -/

/-- A skip on equality moves PC past the next instruction if the two are equal. -/
theorem skipIf_beq_pc (s : State) (a b : Byte) :
    (s.skipIf (a == b)).pc = if a = b then s.pc + 4 else s.pc + 2 := by
  by_cases h : a = b
  · simp [h]
  · simp [h]

/-- A skip on inequality moves PC past the next instruction if the two differ. -/
theorem skipIf_bne_pc (s : State) (a b : Byte) :
    (s.skipIf (a != b)).pc = if a = b then s.pc + 2 else s.pc + 4 := by
  by_cases h : a = b
  · simp [h]
  · simp [h]

/-- Settles O27: both are skips, on a comparison of Vx with the immediate. -/
theorem skipOnImmediate : Obligations.SkipOnImmediate :=
  fun x kk s =>
    ⟨⟨_, rfl, skipIf_beq_pc s (s.getV x) kk, (Frame.refl s).skipIf _⟩,
      ⟨_, rfl, skipIf_bne_pc s (s.getV x) kk, (Frame.refl s).skipIf _⟩⟩

/-- Settles O28: both are skips, on a comparison of Vx with Vy. -/
theorem skipOnRegisters : Obligations.SkipOnRegisters :=
  fun x y s =>
    ⟨⟨_, rfl, skipIf_beq_pc s (s.getV x) (s.getV y), (Frame.refl s).skipIf _⟩,
      ⟨_, rfl, skipIf_bne_pc s (s.getV x) (s.getV y), (Frame.refl s).skipIf _⟩⟩

/-! ### CALL and RET (R104, R106) -/

/-- An index below 16 is an entry of the stack (R25). -/
theorem stackAt_of_lt {s : State} {j : Nat} (h : j < 16) : stackAt s j = s.stack[j] := by
  simp [stackAt, h]

/-- The stack's entries after one of them is written. -/
theorem stackAt_set {s : State} {k : Nat} (hk : k < 16) (w : Word) {j : Nat} (hj : j < 16) :
    stackAt { s with stack := s.stack.set k w } j = if j = k then w else stackAt s j := by
  rw [stackAt_of_lt hj, stackAt_of_lt hj, Vector.getElem_set]
  exact if_congr eq_comm rfl rfl

/-- Settles O23: below 16 entries the push is a write at SP, which is then one higher; at 16 it raises. -/
theorem callPushesItsAddress : Obligations.CallPushesItsAddress := by
  intro nnn s
  refine ⟨fun hsp => ?_, fun hsp => ?_⟩
  · have hfull : s.sp ≠ 16 := fun h => by rw [h] at hsp; exact absurd hsp (by decide)
    have hsp1 : (s.sp + 1).toNat = s.sp.toNat + 1 :=
      BitVec.toNat_add_of_lt (show s.sp.toNat + 1 < 2 ^ 8 by omega)
    exact ⟨_, exec_call_push hfull hsp, addrOperand_toNat nnn, hsp1, fun _ hj => stackAt_set hsp s.pc hj,
      (Frame.withStack s _ _).jumpTo _⟩
  · have hfull : s.sp = 16 := BitVec.eq_of_toNat_eq hsp
    exact ⟨_, exec_call_full hfull, raise_raised (c := .stackOverflow) s _ (by decide)⟩

/-- Settles O24: with 1 to 16 entries the pop reads the entry below SP, which is then one lower; with none it raises. -/
theorem returnPopsAndAddsTwo : Obligations.ReturnPopsAndAddsTwo := by
  intro s
  refine ⟨fun ⟨hpos, hle⟩ => ?_, fun hsp => ?_⟩
  · have hempty : s.sp ≠ 0 := fun h => by rw [h] at hpos; exact absurd hpos (by decide)
    have htop : s.sp.toNat - 1 < 16 := by omega
    have hsp1 : (s.sp - 1).toNat = s.sp.toNat - 1 := BitVec.toNat_sub_of_le hpos
    exact ⟨_, exec_ret_pop hempty htop, hsp1, by rw [jumpTo_pc, stackAt_of_lt htop], rfl,
      (Frame.withStack s _ _).jumpTo _⟩
  · have hempty : s.sp = 0 := BitVec.eq_of_toNat_eq hsp
    exact ⟨_, exec_ret_empty hempty, raise_raised (c := .stackUnderflow) s _ (by decide)⟩

/-- Settles O25: the CALL leaves its own PC in the entry below the new SP, and that is the entry the RET pops. -/
theorem callThenReturnResumes : Obligations.CallThenReturnResumes := by
  intro nnn s hsp
  obtain ⟨t, hcall, -, hspt, hstackt, -⟩ := (callPushesItsAddress nnn s).1 hsp
  refine ⟨t, hcall, fun u hspu hstacku => ?_⟩
  have hsp1 : u.sp.toNat = s.sp.toNat + 1 := hspu ▸ hspt
  obtain ⟨r, hret, hspr, hpcr, -, -⟩ := (returnPopsAndAddsTwo u).1 (by omega)
  have hpopped : stackAt u (u.sp.toNat - 1) = s.pc := by
    calc stackAt u (u.sp.toNat - 1) = stackAt t s.sp.toNat := by
          rw [hsp1, Nat.add_sub_cancel, stackAt, stackAt, hstacku]
      _ = s.pc := by rw [hstackt _ hsp, if_pos rfl]
  exact ⟨r, hret, by rw [hpcr, hpopped], BitVec.eq_of_toNat_eq (by omega)⟩

end Sys2Proof.Machine
end

section
/-! The register loads, the ALU instructions and the random byte (41_register_alu.md R139 to R152). Each writes Vx, the
two-result ones VF before it, and moves PC on: its frame is built write by write, and its values are those of the
arithmetic of Flags.lean, said here in numbers. -/

namespace Sys2Proof

open Sys2Proof.Machine

section
variable {regs : List RegIdx} {parts : List Part} {s t : State}

/-- A write to a register adds that register to what may have changed. -/
theorem Frame.setV (h : Frame regs parts s t) (x : RegIdx) (b : Byte) : Frame (x :: regs) parts s (t.setV x b) where
  regs_same r hr := by
    rw [getV_setV_of_ne (List.ne_of_not_mem_cons hr), h.regs_same r (List.not_mem_of_not_mem_cons hr)]
  parts_same p hp := by
    have hsame : Part.Same s t p := h.parts_same p hp
    cases p with
    | _ => exact hsame
  params_same := h.params_same
  calls_same := h.calls_same

end

/-- A random draw changes the count of draws alone (R252). -/
theorem Frame.drawRand (s : State) : Frame [] [.draws] s s.drawRand.2 where
  regs_same _ _ := rfl
  parts_same p hp := by
    have hsame : Part.Same s s p := (Frame.refl s).parts_same p List.not_mem_nil
    cases p with
    | draws => exact absurd (List.mem_singleton.mpr rfl) hp
    | _ => exact hsame
  params_same := rfl
  calls_same := rfl

/-- A one-result instruction changes its destination alone. -/
theorem Frame.setV_next (s : State) (x : RegIdx) (b : Byte) : Frame [x] [] s (s.setV x b).next :=
  ((Frame.refl s).setV x b).next

/-- A two-result instruction changes its destination and VF alone (R139). -/
theorem Frame.setFlagThen_next (s : State) (f : Bool) (x : RegIdx) (r : Byte) :
    Frame [x, vF] [] s (s.setFlagThen f x r).next :=
  (((Frame.refl s).setV vF (flagByte f)).setV x r).next

end Sys2Proof

namespace Sys2Proof.Machine

/-! ### What the destination and VF hold afterwards -/

theorem getV_setV_self (s : State) (x : RegIdx) (b : Byte) : (s.setV x b).getV x = b := by
  rw [getV_setV, if_pos rfl]

/-- The result is written last, so it stays even where x = F (R139, D15). -/
theorem getV_setFlagThen_self (s : State) (f : Bool) (x : RegIdx) (r : Byte) : (s.setFlagThen f x r).getV x = r := by
  rw [getV_setFlagThen, if_pos rfl]

theorem getV_vF_setFlagThen {x : RegIdx} (hx : x ≠ vF) (s : State) (f : Bool) (r : Byte) :
    (s.setFlagThen f x r).getV vF = flagByte f := by
  rw [getV_setFlagThen, if_neg hx.symm, if_pos rfl]

/-! ### The arithmetic in numbers (R141, R146 to R150) -/

theorem sum8_toNat (a b : Byte) : (sum8 a b).toNat = (a.toNat + b.toNat) % 256 := BitVec.toNat_ofNat ..

theorem diff8_toNat (a b : Byte) : (diff8 a b).toNat = (a.toNat + 256 - b.toNat) % 256 := BitVec.toNat_ofNat ..

theorem shiftRight1_toNat (b : Byte) : (shiftRight1 b).toNat = b.toNat / 2 :=
  (BitVec.toNat_ushiftRight ..).trans (Nat.shiftRight_one _)

theorem shiftLeft1_toNat (b : Byte) : (shiftLeft1 b).toNat = b.toNat * 2 % 256 := by
  rw [shiftLeft1, BitVec.toNat_shiftLeft, Nat.shiftLeft_eq]

theorem flagByte_decide (p : Prop) [Decidable p] : flagByte (decide p) = if p then 1 else 0 :=
  if_congr decide_eq_true_iff rfl rfl

theorem flagByte_toNat (f : Bool) : (flagByte f).toNat = f.toNat := by
  cases f with
  | true => rfl
  | false => rfl

theorem flagByte_lowBit_toNat (b : Byte) : (flagByte (lowBit b)).toNat = b.toNat % 2 := by
  rw [flagByte_toNat, lowBit, BitVec.getLsbD, Nat.toNat_testBit, Nat.pow_zero, Nat.div_one]

/-- Bit 7 is all that is left of a byte above its low seven bits. -/
theorem flagByte_highBit_toNat (b : Byte) : (flagByte (highBit b)).toNat = b.toNat / 128 := by
  have hb : b.toNat < 2 ^ 8 := b.isLt
  rw [flagByte_toNat, highBit, BitVec.getLsbD, Nat.toNat_testBit]
  omega

/-- The register a shift reads (R148, R150, D4). -/
theorem shiftSource_eq (s : State) (x y : RegIdx) :
    s.shiftSource x y = if s.params.shiftQuirk = .legacy then s.getV y else s.getV x := by
  cases hq : s.params.shiftQuirk with
  | legacy => simp [State.shiftSource, hq]
  | modern => simp [State.shiftSource, hq]

/-! ### One result (R140 to R145, R151) -/

/-- Settles O30: both are one write of Vx, the copy's value read before it. -/
theorem loadsWriteVx : Obligations.LoadsWriteVx :=
  ⟨fun x kk s => ⟨_, rfl, getV_setV_self s x kk, rfl, .setV_next s x kk⟩,
    fun x y s => ⟨_, rfl, getV_setV_self s x (s.getV y), rfl, .setV_next s x (s.getV y)⟩⟩

/-- Settles O31: the sum is truncated to a byte, and Vx is the only register written. -/
theorem addImmediateWraps : Obligations.AddImmediateWraps := by
  intro x kk s
  refine ⟨_, rfl, ?_, rfl, .setV_next s x _⟩
  rw [next_getV, getV_setV_self, sum8_toNat]

/-- Settles O32: the result is the bit vectors' OR, AND or XOR, which acts on each bit. -/
theorem logicIsBitwise : Obligations.LogicIsBitwise := by
  intro x y s
  refine ⟨⟨_, rfl, rfl, .setV_next s x _, fun k _ => ?_⟩, ⟨_, rfl, rfl, .setV_next s x _, fun k _ => ?_⟩,
    ⟨_, rfl, rfl, .setV_next s x _, fun k _ => ?_⟩⟩
  · rw [next_getV, getV_setV_self, BitVec.getLsbD_or]
  · rw [next_getV, getV_setV_self, BitVec.getLsbD_and]
  · rw [next_getV, getV_setV_self, BitVec.getLsbD_xor]

/-- Settles O36: nothing is used of the drawn byte but that it is the next draw. -/
theorem randomByteIsMasked : Obligations.RandomByteIsMasked :=
  fun x kk s => ⟨_, rfl, getV_setV_self s.drawRand.2 x (s.drawRand.1 &&& kk), rfl, rfl,
    ((Frame.drawRand s).setV x _).next⟩

/-! ### A result and a flag (R146 to R150) -/

/-- Settles O33: the two written values are computed from the operands of the old state. -/
theorem addRegistersCarries : Obligations.AddRegistersCarries := by
  intro x y s
  refine ⟨_, rfl, ?_, fun hx => ?_, rfl, .setFlagThen_next s _ x _⟩
  · rw [next_getV, getV_setFlagThen_self, sum8_toNat]
  · rw [next_getV, getV_vF_setFlagThen hx, carryOut, flagByte_decide]

/-- Settles O34: 8xy5 and 8xy7 are one subtraction with the operands exchanged. -/
theorem subtractSetsNoBorrow : Obligations.SubtractSetsNoBorrow := by
  intro x y s
  have hdiff (a b : Byte) :
      ((s.setFlagThen (noBorrow a b) x (diff8 a b)).next.getV x).toNat = (a.toNat + 256 - b.toNat) % 256 := by
    rw [next_getV, getV_setFlagThen_self, diff8_toNat]
  have hflag (a b : Byte) (hx : x ≠ vF) :
      (s.setFlagThen (noBorrow a b) x (diff8 a b)).next.getV vF = if a.toNat > b.toNat then 1 else 0 := by
    rw [next_getV, getV_vF_setFlagThen hx, noBorrow, flagByte_decide]
  exact ⟨⟨_, rfl, hdiff (s.getV x) (s.getV y), hflag (s.getV x) (s.getV y), rfl, .setFlagThen_next s _ x _⟩,
    ⟨_, rfl, hdiff (s.getV y) (s.getV x), hflag (s.getV y) (s.getV x), rfl, .setFlagThen_next s _ x _⟩⟩

/-- Settles O35: the statement's source is the model's `shiftSource`, and the flag is the bit that the shift drops. -/
theorem shiftsMoveOneBit : Obligations.ShiftsMoveOneBit := by
  intro x y s src hsrc
  obtain rfl : src = s.shiftSource x y := hsrc.trans (shiftSource_eq s x y).symm
  refine ⟨⟨_, rfl, ?_, fun hx => ?_, rfl, .setFlagThen_next s _ x _⟩,
    ⟨_, rfl, ?_, fun hx => ?_, rfl, .setFlagThen_next s _ x _⟩⟩
  · rw [next_getV, getV_setFlagThen_self, shiftRight1_toNat]
  · rw [next_getV, getV_vF_setFlagThen hx, flagByte_lowBit_toNat]
  · rw [next_getV, getV_setFlagThen_self, shiftLeft1_toNat]
  · rw [next_getV, getV_vF_setFlagThen hx, flagByte_highBit_toNat]

end Sys2Proof.Machine
end

section
/-! The index register and the memory transfers (42_index_memory.md R170 to R175): three instructions write I alone, two
write memory alone, and Fx65 writes registers alone. -/

namespace Sys2Proof

open Sys2Proof.Machine

theorem Frame.withIndex (s : State) (w : Word) : Frame [] [.index] s { s with i := w } where
  regs_same _ _ := rfl
  parts_same p hp := by
    have hsame : Part.Same s s p := (Frame.refl s).parts_same p List.not_mem_nil
    cases p with
    | index => exact absurd (List.mem_singleton.mpr rfl) hp
    | _ => exact hsame
  params_same := rfl
  calls_same := rfl

theorem Frame.withMemory (s : State) (m : List Host.Cell) : Frame [] [.memory] s { s with mem := m } where
  regs_same _ _ := rfl
  parts_same p hp := by
    have hsame : Part.Same s s p := (Frame.refl s).parts_same p List.not_mem_nil
    cases p with
    | memory => exact absurd (List.mem_singleton.mpr rfl) hp
    | _ => exact hsame
  params_same := rfl
  calls_same := rfl

/-- The general registers are in no part of the state. -/
theorem Part.same_withRegisters (s : State) (v : Vector Byte 16) (p : Part) : Part.Same s { s with v := v } p := by
  have hsame : Part.Same s s p := (Frame.refl s).parts_same p List.not_mem_nil
  cases p with
  | _ => exact hsame

/-- PC is in no part of the state. -/
theorem Part.Same.next {s t : State} {p : Part} (h : Part.Same s t p) : Part.Same s t.next p := by
  cases p with
  | _ => exact h

end Sys2Proof

namespace Sys2Proof.Machine

/-! ### The index register (R170 to R172) -/

/-- Five times a byte is at most 1275, which 16 bits hold (R172). -/
theorem byteOperand_mul_five_toNat (b : Byte) : (byteOperand b * 5).toNat = b.toNat * 5 := by
  have hb : b.toNat < 2 ^ 8 := b.isLt
  rw [BitVec.toNat_mul, byteOperand_toNat]
  exact Nat.mod_eq_of_lt (show b.toNat * 5 < 2 ^ 16 by omega)

/-- Settles O37: I takes the zero-extended address, or a product that does not wrap. -/
theorem indexLoads : Obligations.IndexLoads :=
  ⟨fun nnn s => ⟨_, rfl, addrOperand_toNat nnn, rfl, (Frame.withIndex s _).next⟩,
    fun x s => ⟨_, rfl, byteOperand_mul_five_toNat (s.getV x), rfl, (Frame.withIndex s _).next⟩⟩

/-- Settles O38: the sum is that of 16-bit words, which wraps, and I is all that is written. -/
theorem indexAddWraps : Obligations.IndexAddWraps := by
  intro x s
  refine ⟨_, rfl, ?_, rfl, (Frame.withIndex s _).next⟩
  rw [next_i, BitVec.toNat_add, byteOperand_toNat]

/-! ### Each transfer inside memory (R173 to R175) -/

/-- An instruction whose computation succeeds answers its state, with PC moved on. -/
theorem finish_map_next_ok {s u : State} {w : Word} {e : Except Cause State} (h : e = .ok u) :
    finish s w (e.map State.next) = .next u.next := by
  rw [h]
  rfl

/-- Where the last register of the range V0 to Vx has its address inside memory, so has every other. -/
theorem regsUpTo_inRange {base : Nat} {x : RegIdx} (h : base + x.toNat ≤ 0xFFF) :
    ∀ r ∈ regsUpTo x, base + r.toNat ≤ 0xFFF :=
  fun r hr => (Nat.add_le_add_left ((mem_regsUpTo x r).mp hr) base).trans h

/-- Fx33 whose three addresses are inside memory stores the digits from I up and changes no other byte (R173). -/
theorem exec_ldBVx_ok {x : RegIdx} {s : State} (hwf : Memory.wf s.params.font s.mem = true)
    (h : s.i.toNat + 2 ≤ 0xFFF) :
    ∃ m, exec (.ldBVx x) s = .next { s with mem := m }.next ∧
      (∀ j, (hj : j < 3) → Memory.read s.params.font m (s.i.toNat + j) = (bcdDigits (s.getV x))[j]) ∧
      ∀ a, a < s.i.toNat ∨ s.i.toNat + 3 ≤ a → Memory.read s.params.font m a = s.readByte a := by
  have hfits : s.addrOfI 0 + (bcdDigits (s.getV x)).length ≤ 0x1000 := Nat.succ_le_succ h
  obtain ⟨m, hm, -, hdigits, hkept⟩ := memWriteAll_ok hwf hfits
  exact ⟨m, finish_map_next_ok hm, hdigits, hkept⟩

/-- Fx65 whose addresses are inside memory loads V0 to Vx from I up and changes no other register (R175). -/
theorem exec_ldVxMem_ok {x : RegIdx} {s : State} (h : s.i.toNat + x.toNat ≤ 0xFFF) :
    ∃ v, exec (.ldVxMem x) s = .next { s with v := v }.next ∧
      ∀ r : RegIdx, State.getV { s with v := v } r =
        if r.toNat ≤ x.toNat then s.readByte (s.i.toNat + r.toNat) else s.getV r := by
  obtain ⟨v, hv, hregs⟩ := loadRegs_ok (s := s) (regsUpTo_inRange h)
  exact ⟨v, finish_map_next_ok hv, fun r => (hregs r).trans (if_congr (mem_regsUpTo x r) rfl rfl)⟩

/-! ### The decimal digits (R173) -/

/-- A number up to that of a byte is a byte, so no digit is truncated. -/
theorem ofNat_toNat_of_le_byte {d : Nat} {b : Byte} (h : d ≤ b.toNat) : (BitVec.ofNat 8 d).toNat = d :=
  (BitVec.toNat_ofNat ..).trans (Nat.mod_eq_of_lt (h.trans_lt b.isLt))

/-- Settles O39: the digits stand at I to I + 2 in the order of the digits' list, hundreds first (D18). -/
theorem bcdStoresDigits : Obligations.BcdStoresDigits := by
  intro x s hlegal hi
  obtain ⟨m, hexec, hdigits, hkept⟩ := exec_ldBVx_ok (x := x) hlegal.mem_wf hi
  have hundreds : Memory.read s.params.font m s.i.toNat = BitVec.ofNat 8 ((s.getV x).toNat / 100) :=
    hdigits 0 (by decide)
  have tens : Memory.read s.params.font m (s.i.toNat + 1) = BitVec.ofNat 8 ((s.getV x).toNat / 10 % 10) :=
    hdigits 1 (by decide)
  have ones : Memory.read s.params.font m (s.i.toNat + 2) = BitVec.ofNat 8 ((s.getV x).toNat % 10) :=
    hdigits 2 (by decide)
  refine ⟨_, hexec, ?_, ?_, ?_, hkept, rfl, (Frame.withMemory s m).next⟩
  · exact (congrArg BitVec.toNat hundreds).trans (ofNat_toNat_of_le_byte (Nat.div_le_self _ _))
  · exact (congrArg BitVec.toNat tens).trans
      (ofNat_toNat_of_le_byte ((Nat.mod_le _ _).trans (Nat.div_le_self _ _)))
  · exact (congrArg BitVec.toNat ones).trans (ofNat_toNat_of_le_byte (Nat.mod_le _ _))

/-! ### Registers to memory and back (R174, R175) -/

/-- Settles O40: an address outside [I, I + x] is that of no stored register. -/
theorem storeRegistersWritesRange : Obligations.StoreRegistersWritesRange := by
  intro x s hlegal hi
  obtain ⟨m, hexec, -, hstored, hkept⟩ := exec_ldMemVx_ok hlegal.mem_wf hi
  refine ⟨_, hexec, hstored, fun a ha => hkept a fun r hr => ?_, rfl, (Frame.withMemory s m).next⟩
  omega

/-- Settles O41: registers are all that a load writes. -/
theorem loadRegistersReadsRange : Obligations.LoadRegistersReadsRange := by
  intro x s hi
  obtain ⟨v, hexec, hregs⟩ := exec_ldVxMem_ok hi
  exact ⟨_, hexec, hregs, rfl, fun p => (Part.same_withRegisters s v p).next, rfl, rfl⟩

/-- A byte of memory reads alike in two states with the same memory and font. -/
theorem readByte_eq_of_mem_eq {s t : State} (hmem : t.mem = s.mem) (hparams : t.params = s.params) (a : Nat) :
    t.readByte a = s.readByte a := by
  rw [State.readByte, State.readByte, hmem, hparams]

/-- Settles O42: the store leaves I, so the load reads each register from the address it was stored at. -/
theorem storeThenLoadRestores : Obligations.StoreThenLoadRestores := by
  intro x s hlegal hi
  obtain ⟨t, hstore, hstored, -, -, hframe⟩ := storeRegistersWritesRange x s hlegal hi
  have hti : t.i = s.i := hframe.parts_same .index (by decide)
  refine ⟨t, hstore, fun u hui humem huparams => ?_⟩
  have husi : u.i = s.i := hui.trans hti
  obtain ⟨w, hload, hloaded, -⟩ := loadRegistersReadsRange x u (by rw [husi]; exact hi)
  refine ⟨w, hload, fun r hr => ?_⟩
  calc w.getV r = u.readByte (u.i.toNat + r.toNat) := by rw [hloaded, if_pos hr]
    _ = t.readByte (s.i.toNat + r.toNat) := by rw [husi, readByte_eq_of_mem_eq humem huparams]
    _ = s.getV r := hstored r hr

end Sys2Proof.Machine
end

section
/-! The display (43_display.md R190 to R192): 00E0 and Dxyn write the pixels and Dirty, Dxyn VF too. A sprite that fits
inverts the pixels under its set bits, one that does not raises at its first row that cannot be drawn. -/

namespace Sys2Proof

open Sys2Proof.Machine

theorem Frame.withDisplay (s : State) (disp : BitVec 2048) (dirty : Bool) :
    Frame [] [.pixels, .dirty] s { s with disp := disp, dirty := dirty } where
  regs_same _ _ := rfl
  parts_same p hp := by
    have hsame : Part.Same s s p := (Frame.refl s).parts_same p List.not_mem_nil
    cases p with
    | pixels => exact absurd (List.mem_cons_self ..) hp
    | dirty => exact absurd (List.mem_cons_of_mem _ (List.mem_cons_self ..)) hp
    | _ => exact hsame
  params_same := rfl
  calls_same := rfl

/-- A drawn sprite changes VF, the pixels and Dirty alone. -/
theorem Frame.showCanvas (s : State) (d : Canvas) : Frame [vF] [.pixels, .dirty] s (s.showCanvas d) :=
  ((Frame.withDisplay s d.1 true).setV vF (flagByte d.2)).next

end Sys2Proof

namespace Sys2Proof.Machine

/-- Settles O44: the empty display has no lit pixel, and no register is written. -/
theorem clearDisplay : Obligations.ClearDisplay :=
  fun s => ⟨_, rfl, fun _ _ => BitVec.getLsbD_zero, rfl, rfl, (Frame.withDisplay s 0 true).next⟩

/-! ### The set bits of a sprite -/

/-- Some set bit of the sprite falls on a pixel index that passes the test. -/
def spriteAny (s : State) (x y : RegIdx) (n : Nibble) (test : Nat → Bool) : Bool :=
  (spriteRows n).any fun r => columns.any fun c => spriteBit s r c && test (spritePixel s x y r c)

theorem mem_spriteRows {n : Nibble} {r : Nat} : r ∈ spriteRows n ↔ r < n.toNat := List.mem_range

theorem spriteAny_eq_true {s : State} {x y : RegIdx} {n : Nibble} {test : Nat → Bool} :
    spriteAny s x y n test = true ↔
      ∃ r < n.toNat, ∃ c < 8, spriteBit s r c = true ∧ test (spritePixel s x y r c) = true := by
  simp only [spriteAny, List.any_eq_true, Bool.and_eq_true, mem_spriteRows, mem_columns]

/-- Only the pixels of set bits are tested. -/
theorem spriteAny_congr {s : State} {x y : RegIdx} {n : Nibble} {f g : Nat → Bool}
    (h : ∀ r < n.toNat, ∀ c < 8, spriteBit s r c = true → f (spritePixel s x y r c) = g (spritePixel s x y r c)) :
    spriteAny s x y n f = spriteAny s x y n g := by
  rw [Bool.eq_iff_iff, spriteAny_eq_true, spriteAny_eq_true]
  refine exists_congr fun r => and_congr_right fun hr => exists_congr fun c => and_congr_right fun hc =>
    and_congr_right fun hbit => ?_
  rw [h r hr c hc hbit]

/-- The pixel `p` lies under a set bit of the sprite. -/
def spriteCovers (s : State) (x y : RegIdx) (n : Nibble) (p : Nat) : Bool := spriteAny s x y n fun q => decide (p = q)

theorem spriteCovers_eq_true {s : State} {x y : RegIdx} {n : Nibble} {p : Nat} :
    spriteCovers s x y n p = true ↔
      ∃ r < n.toNat, ∃ c < 8, spriteBit s r c = true ∧ spritePixel s x y r c = p := by
  simp only [spriteCovers, spriteAny_eq_true, decide_eq_true_eq, eq_comm (a := p)]

/-- VF as a collision flag, read clause by clause. -/
theorem flagByte_of_iff {b : Bool} {P : Prop} (h : b = true ↔ P) : (P → flagByte b = 1) ∧ (¬P → flagByte b = 0) :=
  ⟨fun hp => if_pos (h.mpr hp), fun hp => if_neg fun hb => hp (h.mp hb)⟩

/-! A draw leaves the sprite's bytes and, unless VF is one of them, the registers it is placed by: the same sprite
stands at the same place afterwards. -/

theorem spritePixel_showCanvas {x y : RegIdx} (hx : x ≠ vF) (hy : y ≠ vF) (s : State) (d : Canvas) (r c : Nat) :
    spritePixel (s.showCanvas d) x y r c = spritePixel s x y r c := by
  simp only [spritePixel, getV_showCanvas, if_neg hx, if_neg hy]

theorem spriteBit_showCanvas (s : State) (d : Canvas) (r c : Nat) :
    spriteBit (s.showCanvas d) r c = spriteBit s r c := rfl

theorem spriteAny_showCanvas {x y : RegIdx} (hx : x ≠ vF) (hy : y ≠ vF) (s : State) (d : Canvas) (n : Nibble)
    (test : Nat → Bool) : spriteAny (s.showCanvas d) x y n test = spriteAny s x y n test := by
  simp only [spriteAny, spriteBit_showCanvas, spritePixel_showCanvas hx hy]

theorem spriteFits_showCanvas {x y : RegIdx} (hx : x ≠ vF) (hy : y ≠ vF) {s : State} {n : Nibble}
    (h : SpriteFits s x y n) (d : Canvas) : SpriteFits (s.showCanvas d) x y n := by
  simpa only [SpriteFits, showCanvas_i, spriteBit_showCanvas, spritePixel_showCanvas hx hy] using h

/-! ### Dxyn (R191) -/

theorem rowDrawable_iff {s : State} {x y : RegIdx} {r : Nat} :
    RowDrawable s (s.getV x).toNat (s.getV y).toNat r ↔
      s.i.toNat + r ≤ 0xFFF ∧ ∀ c < 8, spriteBit s r c = true → spritePixel s x y r c ≤ 2047 := by
  simp only [RowDrawable, spritePixel, Nat.lt_succ_iff]

/-- A sprite that fits is drawn: the pixels under its set bits are inverted, and the collision flag is raised when one
of them was lit. -/
theorem exec_drw_ok {x y : RegIdx} {n : Nibble} {s : State} (h : SpriteFits s x y n) :
    ∃ d, exec (.drw x y n) s = .next (s.showCanvas d) ∧
      (∀ p, Display.pixel d.1 p = (Display.pixel s.disp p ^^ spriteCovers s x y n p)) ∧
      d.2 = spriteAny s x y n (Display.pixel s.disp) := by
  have hrows : ∀ r ∈ spriteRows n, RowDrawable s (s.getV x).toNat (s.getV y).toNat r :=
    fun r hr => rowDrawable_iff.mpr (h r (mem_spriteRows.mp hr))
  obtain ⟨d, hd, hpixels, hflag⟩ := drawRows_ok (d := (s.disp, false)) List.nodup_range hrows
  refine ⟨d, ?_, hpixels, hflag.trans (Bool.false_or _)⟩
  exact congrArg (fun e => finish s (encode (.drw x y n)) (e.map s.showCanvas)) hd

/-- Settles O45: a pixel is inverted where a set bit covers it, and the two clauses of VF are those of its flag. -/
theorem drawXorsSprite : Obligations.DrawXorsSprite := by
  intro x y n s hfits
  obtain ⟨d, hexec, hpixels, hflag⟩ := exec_drw_ok hfits
  have hvF : (s.showCanvas d).getV vF = flagByte (spriteAny s x y n (Display.pixel s.disp)) := by
    rw [getV_showCanvas, if_pos rfl, hflag]
  obtain ⟨hcollision, hnone⟩ := flagByte_of_iff (spriteAny_eq_true (s := s) (x := x) (y := y) (n := n))
  refine ⟨_, hexec, fun p _ => ⟨fun hcovered => ?_, fun hbare => ?_⟩, fun h => hvF.trans (hcollision h),
    fun h => hvF.trans (hnone h), rfl, rfl, .showCanvas s d⟩
  · rw [showCanvas_disp, hpixels, spriteCovers_eq_true.mpr hcovered, Bool.xor_true]
  · rw [showCanvas_disp, hpixels, Bool.eq_false_iff.mpr (mt spriteCovers_eq_true.mp hbare), Bool.xor_false]

/-- Settles O47: the second draw has the same bits at the same pixels, each of them inverted by the first. -/
theorem drawTwiceRestoresDisplay : Obligations.DrawTwiceRestoresDisplay := by
  intro x y n s hx hy hfits
  obtain ⟨d, hfirst, hpixels, -⟩ := exec_drw_ok hfits
  obtain ⟨e, hsecond, hpixels', hflag⟩ := exec_drw_ok (spriteFits_showCanvas hx hy hfits d)
  have hcovers (p : Nat) : spriteCovers (s.showCanvas d) x y n p = spriteCovers s x y n p :=
    spriteAny_showCanvas hx hy s d n _
  have hdisp : e.1 = s.disp := BitVec.eq_of_getLsbD_eq fun p _ => by
    calc Display.pixel e.1 p = (Display.pixel d.1 p ^^ spriteCovers s x y n p) := by
          rw [hpixels', hcovers, showCanvas_disp]
      _ = Display.pixel s.disp p := by rw [hpixels, Bool.xor_assoc, Bool.xor_self, Bool.xor_false]
  have hinverted : spriteAny s x y n (Display.pixel d.1) = spriteAny s x y n fun p => !Display.pixel s.disp p :=
    spriteAny_congr fun r hr c hc hbit => by
      rw [hpixels, spriteCovers_eq_true.mpr ⟨r, hr, c, hc, hbit, rfl⟩, Bool.xor_true]
  have hcollision : spriteAny s x y n (fun p => !Display.pixel s.disp p) = true ↔
      ∃ r < n.toNat, ∃ c < 8, spriteBit s r c = true ∧ Display.pixel s.disp (spritePixel s x y r c) = false := by
    simp only [spriteAny_eq_true, Bool.not_eq_true']
  have hvF : ((s.showCanvas d).showCanvas e).getV vF =
      flagByte (spriteAny s x y n fun p => !Display.pixel s.disp p) := by
    rw [getV_showCanvas, if_pos rfl, hflag, showCanvas_disp, spriteAny_showCanvas hx hy, hinverted]
  exact ⟨_, _, hfirst, hsecond, hdisp, rfl, hvF ▸ flagByte_of_iff hcollision⟩

/-! ### A sprite that does not fit (R232) -/

/-- The rows below `r` are drawn before it. -/
theorem spriteRows_split {n : Nibble} {r : Nat} (h : r < n.toNat) :
    ∃ post, spriteRows n = List.range r ++ r :: post := by
  obtain ⟨k, hk⟩ := Nat.exists_eq_add_of_lt h
  exact ⟨_, by rw [spriteRows, hk, Nat.add_assoc, List.range_add, List.range_succ_eq_map, List.map_cons, Nat.add_zero]⟩

/-- The first row that cannot be drawn raises the cause that row meets first, and nothing is drawn. -/
theorem exec_drw_error {x y : RegIdx} {n : Nibble} {s : State} {r : Nat} (hr : r < n.toNat)
    (hbefore : ∀ q < r, s.i.toNat + q ≤ 0xFFF ∧ ∀ c < 8, spriteBit s q c = true → spritePixel s x y q c ≤ 2047)
    (hbad : ¬ (s.i.toNat + r ≤ 0xFFF ∧ ∀ c < 8, spriteBit s r c = true → spritePixel s x y r c ≤ 2047)) :
    ∃ t, exec (.drw x y n) s = .next t ∧
      Raised s (if 0xFFF < s.i.toNat + r then 5 else 6) (encode (.drw x y n)) t := by
  obtain ⟨post, hsplit⟩ := spriteRows_split hr
  have hrows : drawRows s (s.getV x).toNat (s.getV y).toNat (spriteRows n) (s.disp, false) =
      .error (if 0xFFF < s.i.toNat + r then .memoryOutOfRange else .displayOutOfRange) := by
    rw [hsplit]
    exact drawRows_error (fun q hq => rowDrawable_iff.mpr (hbefore q (List.mem_range.mp hq)))
      (mt rowDrawable_iff.mp hbad)
  by_cases hmem : 0xFFF < s.i.toNat + r
  · rw [if_pos hmem] at hrows ⊢
    exact finish_error_raised hrows (by decide)
  · rw [if_neg hmem] at hrows ⊢
    exact finish_error_raised hrows (by decide)

/-- Settles O46: a byte past memory or a set bit past the display makes row `r` the first that cannot be drawn. -/
theorem drawOutOfRangeFaults : Obligations.DrawOutOfRangeFaults := by
  intro x y n s r hr hbefore
  refine ⟨fun hmem => ?_, fun hmem hbit => ?_⟩
  · have h := exec_drw_error hr hbefore fun hrow => Nat.not_lt.mpr hrow.1 hmem
    rwa [if_pos hmem] at h
  · obtain ⟨c, hc, hset, hpast⟩ := hbit
    have h := exec_drw_error hr hbefore fun hrow => Nat.not_lt.mpr (hrow.2 c hc hset) hpast
    rwa [if_neg (Nat.not_lt.mpr hmem)] at h

end Sys2Proof.Machine
end

section
/-! The keypad and timer instructions (44_keys_timers.md R210 to R215): the key skips, the timer transfers and the key
wait, with the two key events of the host (60_exceptions.md R245, R246) that it meets. -/

namespace Sys2Proof

open Sys2Proof.Machine

/-- New timers and a new wait change the parts among them that do not keep their value. -/
theorem Frame.withTimersAndWait {parts : List Part} {s : State} {dt st : Byte} {wait : Option RegIdx}
    (hdt : .delay ∉ parts → dt = s.dt) (hst : .sound ∉ parts → st = s.st) (hwait : .wait ∉ parts → wait = s.wait) :
    Frame [] parts s { s with dt := dt, st := st, wait := wait } where
  regs_same _ _ := rfl
  parts_same p hp := by
    have hsame : Part.Same s s p := (Frame.refl s).parts_same p List.not_mem_nil
    cases p with
    | delay => exact hdt hp
    | sound => exact hst hp
    | wait => exact hwait hp
    | _ => exact hsame
  params_same := rfl
  calls_same := rfl

theorem Frame.withDelay (s : State) (b : Byte) : Frame [] [.delay] s { s with dt := b } :=
  .withTimersAndWait (fun h => absurd (List.mem_singleton.mpr rfl) h) (fun _ => rfl) (fun _ => rfl)

theorem Frame.withSound (s : State) (b : Byte) : Frame [] [.sound] s { s with st := b } :=
  .withTimersAndWait (fun _ => rfl) (fun h => absurd (List.mem_singleton.mpr rfl) h) (fun _ => rfl)

theorem Frame.withWait (s : State) (w : Option RegIdx) : Frame [] [.wait] s { s with wait := w } :=
  .withTimersAndWait (fun _ => rfl) (fun _ => rfl) (fun h => absurd (List.mem_singleton.mpr rfl) h)

end Sys2Proof

namespace Sys2Proof.Machine

/-! ### Skips on a key (R210, R211) -/

/-- A number below 16 names a key of the keypad (R29). -/
theorem keyAt_of_lt {s : State} {k : Nat} (h : k < 16) : keyAt s k = s.key[k] := by
  simp [keyAt, h]

/-- The key a byte names, where there is one, is read as the statements read it. -/
theorem keyNamed_eq_keyAt {s : State} {b : Byte} (h : b.toNat ≤ 15) : s.keyNamed b = .ok (keyAt s b.toNat) := by
  have hlt : b.toNat < 16 := Nat.lt_succ_of_le h
  rw [keyNamed_ok hlt, keyAt_of_lt hlt]

/-- An instruction whose computation succeeds answers the state made of what it computed. -/
theorem finish_map_ok {α : Type} {s : State} {w : Word} {e : Except Cause α} {f : α → State} {a : α} (h : e = .ok a) :
    finish s w (e.map f) = .next (f a) := by
  rw [h]
  rfl

theorem exec_skp_ok {x : RegIdx} {s : State} (h : (s.getV x).toNat ≤ 15) :
    exec (.skp x) s = .next (s.skipIf (keyAt s (s.getV x).toNat)) :=
  finish_map_ok (keyNamed_eq_keyAt h)

theorem exec_sknp_ok {x : RegIdx} {s : State} (h : (s.getV x).toNat ≤ 15) :
    exec (.sknp x) s = .next (s.skipIf (!keyAt s (s.getV x).toNat)) :=
  finish_map_ok (keyNamed_eq_keyAt h)

/-- A skip moves PC past the next instruction if its condition holds (R102). -/
theorem skipIf_pc_eq_ite (s : State) (c : Bool) : (s.skipIf c).pc = if c = true then s.pc + 4 else s.pc + 2 := by
  cases c with
  | true => rfl
  | false => rfl

/-- A skip on the negated condition moves PC past the next instruction if the condition fails. -/
theorem skipIf_not_pc_eq_ite (s : State) (c : Bool) :
    (s.skipIf (!c)).pc = if c = true then s.pc + 2 else s.pc + 4 := by
  cases c with
  | true => rfl
  | false => rfl

/-- Settles O48: both are skips, on the state of the key that Vx names. -/
theorem skipOnKey : Obligations.SkipOnKey :=
  fun _ s hkey =>
    ⟨⟨_, exec_skp_ok hkey, skipIf_pc_eq_ite s _, (Frame.refl s).skipIf _⟩,
      ⟨_, exec_sknp_ok hkey, skipIf_not_pc_eq_ite s _, (Frame.refl s).skipIf _⟩⟩

/-- Settles O49: there is no key above 15 to read, so both raise before they skip. -/
theorem keyIndexOutOfRangeFaults : Obligations.KeyIndexOutOfRangeFaults := by
  intro x s hrange
  have hread : s.keyNamed (s.getV x) = .error .keyIndexOutOfRange := keyNamed_error hrange
  exact ⟨finish_error_raised hread (by decide), finish_error_raised hread (by decide)⟩

/-! ### Timers (R212, R214, R215) -/

/-- Settles O50: each is one write, of Vx, DT or ST. -/
theorem timerTransfers : Obligations.TimerTransfers :=
  fun x s =>
    ⟨⟨_, rfl, getV_setV_self s x s.dt, rfl, .setV_next s x s.dt⟩,
      ⟨_, rfl, rfl, rfl, (Frame.withDelay s (s.getV x)).next⟩,
      ⟨_, rfl, rfl, rfl, (Frame.withSound s (s.getV x)).next⟩⟩

/-! ### The key wait and the host's key events (R213, R245, R246) -/

theorem hostKeyUp_of_lt {k : Nat} (hk : k < 16) (s : State) :
    hostKeyUp k s = .next { s with key := s.key.set k false } :=
  dif_pos hk

/-- A machine that waits and is not halted takes the key into the register that waits (R245). -/
theorem completeWait_of_waiting {s : State} {x : RegIdx} (hwait : s.wait = some x) (hrun : s.halted = false) (k : Nat) :
    s.completeWait k = { s.setV x (BitVec.ofNat 8 k) with wait := none }.next := by
  simp [State.completeWait, hwait, hrun]

/-- The key-down that ends a wait, whatever the key's state was (R245, D24). -/
theorem hostKeyDown_of_waiting {s : State} {x : RegIdx} (hwait : s.wait = some x) (hrun : s.halted = false) {k : Nat}
    (hk : k < 16) :
    hostKeyDown k s =
      .next { { s with key := s.key.set k true }.setV x (BitVec.ofNat 8 k) with wait := none }.next := by
  rw [← completeWait_of_waiting (s := { s with key := s.key.set k true }) hwait hrun]
  exact dif_pos hk

/-- A key's number fits the register that takes it. -/
theorem getV_setV_key_toNat (s : State) (x : RegIdx) {k : Nat} (hk : k < 16) :
    ((s.setV x (BitVec.ofNat 8 k)).getV x).toNat = k := by
  rw [getV_setV_self, BitVec.toNat_ofNat, Nat.mod_eq_of_lt (by omega)]

/-- Settles O51: a key-up writes the keys alone, and a key-down finds the machine waiting and not halted. -/
theorem keyWaitHoldsUntilKeyDown : Obligations.KeyWaitHoldsUntilKeyDown := by
  intro x s hrun
  refine ⟨{ s with wait := some x }, rfl, rfl, rfl, Frame.withWait s (some x), fun k hk => ⟨?_, ?_⟩⟩
  · exact ⟨_, hostKeyUp_of_lt hk _, rfl, rfl⟩
  · exact ⟨_, hostKeyDown_of_waiting (s := { s with wait := some x }) rfl hrun hk, getV_setV_key_toNat _ x hk, rfl, rfl⟩

end Sys2Proof.Machine
end

section
/-! The rules of frames for the host's transactions: two frames composed, a frame made weaker, and the frames of the
keys, Dirty and the gate's state (10_state.md R29, R31, R32). -/

namespace Sys2Proof

open Sys2Proof.Machine

theorem Part.Same.trans {s t u : State} {p : Part} (hst : Part.Same s t p) (htu : Part.Same t u p) :
    Part.Same s u p := by
  cases p with
  | stack =>
    obtain ⟨hsp, hstack⟩ := hst
    obtain ⟨hsp', hstack'⟩ := htu
    exact ⟨hsp'.trans hsp, hstack'.trans hstack⟩
  | gate =>
    obtain ⟨hstarted, hinstr, htimer⟩ := hst
    obtain ⟨hstarted', hinstr', htimer'⟩ := htu
    exact ⟨hstarted'.trans hstarted, hinstr'.trans hinstr, htimer'.trans htimer⟩
  | latch =>
    obtain ⟨hhalted, hcode, hword, hpc⟩ := hst
    obtain ⟨hhalted', hcode', hword', hpc'⟩ := htu
    exact ⟨hhalted'.trans hhalted, hcode'.trans hcode, hword'.trans hword, hpc'.trans hpc⟩
  | memory => exact fun a => (htu a).trans (hst a)
  | _ => exact Eq.trans htu hst

/-- Two changes one after the other change what either of them does. -/
theorem Frame.trans {regs regs' : List RegIdx} {parts parts' : List Part} {s t u : State}
    (hst : Frame regs parts s t) (htu : Frame regs' parts' t u) : Frame (regs ++ regs') (parts ++ parts') s u where
  regs_same r hr := by
    obtain ⟨hr, hr'⟩ := not_or.mp (List.mem_append.not.mp hr)
    rw [htu.regs_same r hr', hst.regs_same r hr]
  parts_same p hp := by
    obtain ⟨hp, hp'⟩ := not_or.mp (List.mem_append.not.mp hp)
    exact (hst.parts_same p hp).trans (htu.parts_same p hp')
  params_same := htu.params_same.trans hst.params_same
  calls_same := htu.calls_same.trans hst.calls_same

/-- A frame that allows more parts to change says less. -/
theorem Frame.mono {regs : List RegIdx} {parts parts' : List Part} {s t : State} (h : Frame regs parts s t)
    (hsub : parts ⊆ parts') : Frame regs parts' s t where
  regs_same := h.regs_same
  parts_same p hp := h.parts_same p fun hmem => hp (hsub hmem)
  params_same := h.params_same
  calls_same := h.calls_same

/-- New keys, a new Dirty and new gate state change the parts among them that do not keep their value. -/
theorem Frame.withHostParts {parts : List Part} {s : State} {key : Vector Bool 16} {dirty started : Bool}
    {instr timer : BitVec 64} (hkey : .keys ∉ parts → key = s.key) (hdirty : .dirty ∉ parts → dirty = s.dirty)
    (hgate : .gate ∉ parts → started = s.started ∧ instr = s.lastInstrTime ∧ timer = s.lastTimerTime) :
    Frame [] parts s { s with
      key := key, dirty := dirty, started := started, lastInstrTime := instr, lastTimerTime := timer } where
  regs_same _ _ := rfl
  parts_same p hp := by
    have hsame : Part.Same s s p := (Frame.refl s).parts_same p List.not_mem_nil
    cases p with
    | keys => exact hkey hp
    | dirty => exact hdirty hp
    | gate => exact hgate hp
    | _ => exact hsame
  params_same := rfl
  calls_same := rfl

theorem Frame.withKeys (s : State) (key : Vector Bool 16) : Frame [] [.keys] s { s with key := key } :=
  .withHostParts (fun h => absurd (List.mem_singleton.mpr rfl) h) (fun _ => rfl) (fun _ => ⟨rfl, rfl, rfl⟩)

theorem Frame.withDirty (s : State) (dirty : Bool) : Frame [] [.dirty] s { s with dirty := dirty } :=
  .withHostParts (fun _ => rfl) (fun h => absurd (List.mem_singleton.mpr rfl) h) (fun _ => ⟨rfl, rfl, rfl⟩)

theorem Frame.withGate (s : State) (started : Bool) (instr timer : BitVec 64) :
    Frame [] [.gate] s { s with started := started, lastInstrTime := instr, lastTimerTime := timer } :=
  .withHostParts (fun _ => rfl) (fun _ => rfl) (fun h => absurd (List.mem_singleton.mpr rfl) h)

/-- New timers and new gate times change DT, ST and the gate's state alone. -/
theorem Frame.withTimersAndGate (s : State) (dt st : Byte) (instr timer : BitVec 64) :
    Frame [] [.delay, .sound, .gate] s
      { s with dt := dt, st := st, lastInstrTime := instr, lastTimerTime := timer } :=
  ((Frame.withDelay s dt).trans (Frame.withSound _ st)).trans (Frame.withGate _ s.started instr timer)

/-- The end of a wait writes the register that waits, the wait and PC. -/
theorem Frame.endWait (s : State) (x : RegIdx) (b : Byte) :
    Frame [x] [.wait] s { s.setV x b with wait := none }.next :=
  ((Frame.withWait s none).setV x b).next

end Sys2Proof
end

section
/-! The timing gate (60_exceptions.md R241 to R244): an equation of the tick for each of its outcomes but the firing
one, which `hostTick_opens` gives, the timer gate's effect, and what a cycle leaves of the gate's state. -/

namespace Sys2Proof.Machine

/-! ### The tick, an equation per case -/

theorem hostTick_halted {s : State} (hhalt : s.halted = true) (now : BitVec 64) : hostTick now s = .next s :=
  if_pos hhalt

theorem hostTick_first {s : State} (hrun : s.halted = false) (hstart : s.started = false) (now : BitVec 64) :
    hostTick now s = .next { s with started := true, lastInstrTime := now, lastTimerTime := now } := by
  simp [hostTick, hrun, hstart]

theorem timeBackward_iff {now : BitVec 64} {s : State} :
    timeBackward now s = true ↔ now.toNat < s.lastInstrTime.toNat ∨ now.toNat < s.lastTimerTime.toNat := by
  simp [timeBackward]

theorem hostTick_backward {now : BitVec 64} {s : State} (hrun : s.halted = false) (hstart : s.started = true)
    (hback : now.toNat < s.lastInstrTime.toNat ∨ now.toNat < s.lastTimerTime.toNat) :
    hostTick now s = .refused .hostTimeBackward := by
  simp [hostTick, hrun, hstart, timeBackward_iff.mpr hback]

/-- The instruction gate stays shut within its gap and in a key wait (R242). -/
theorem instrGateOpen_eq_false_iff {now : BitVec 64} {s : State} :
    instrGateOpen now s = false ↔ now.toNat - s.lastInstrTime.toNat ≤ s.params.instrGapMs ∨ s.wait ≠ none := by
  rw [instrGateOpen, Bool.and_eq_false_iff, decide_eq_false_iff_not, Nat.not_lt, Option.isNone_eq_false_iff,
    Option.isSome_iff_ne_none]

/-- A tick whose instruction gate stays shut is the timer gate alone (R244). -/
theorem hostTick_closed {now : BitVec 64} {s : State} (hrun : s.halted = false) (hstart : s.started = true)
    (hinstr : s.lastInstrTime.toNat ≤ now.toNat) (htimer : s.lastTimerTime.toNat ≤ now.toNat)
    (hshut : instrGateOpen now s = false) : hostTick now s = .next (timerGate now s) := by
  have hforward : timeBackward now s = false := by simp [timeBackward, hinstr, htimer]
  simp [hostTick, hrun, hstart, hforward, hshut]

/-! ### The timer gate (R243) -/

/-- The timer gate does what the statements say of it. -/
theorem timersAfter_timerGate (now : BitVec 64) (s : State) : TimersAfter now s (timerGate now s) := by
  unfold TimersAfter timerGate
  split_ifs with hgap
  · exact ⟨countDown_toNat s.dt, countDown_toNat s.st, rfl⟩
  · exact ⟨rfl, rfl, rfl⟩

@[simp] theorem timerGate_pc (now : BitVec 64) (s : State) : (timerGate now s).pc = s.pc := by
  rw [timerGate_eq]

@[simp] theorem timerGate_started (now : BitVec 64) (s : State) : (timerGate now s).started = s.started := by
  rw [timerGate_eq]

@[simp] theorem timerGate_lastInstrTime (now : BitVec 64) (s : State) :
    (timerGate now s).lastInstrTime = s.lastInstrTime := by
  rw [timerGate_eq]

/-- The end of a tick writes the timers and the gate's state alone, whatever instruction time it starts from. -/
theorem timerGate_withInstrTime_frame (now instr : BitVec 64) (s : State) :
    Frame [] [.delay, .sound, .gate] s (timerGate now { s with lastInstrTime := instr }) := by
  rw [timerGate_eq]
  exact Frame.withTimersAndGate ..

theorem timerGate_frame (now : BitVec 64) (s : State) : Frame [] [.delay, .sound, .gate] s (timerGate now s) :=
  timerGate_withInstrTime_frame now s.lastInstrTime s

/-! ### What a cycle leaves of the gate's state -/

/-- Only the tick itself writes the gate's state, no instruction and no raised cause. -/
theorem cycle_gate {s t : State} (h : cycle s = .next t) : Part.Same s t .gate := by
  rcases cycle_next_cases h with ⟨c, w, rfl⟩ | hdone
  · exact ⟨rfl, rfl, rfl⟩
  · exact hdone.gate

/-- A cycle halts a running machine by a raised cause only (R231). -/
theorem cycle_halts {s t : State} (hrun : s.halted = false) (h : cycle s = .next t) (hhalt : t.halted = true) :
    ∃ c w, t = s.raise c w := by
  rcases cycle_next_cases h with hraise | hdone
  · exact hraise
  · obtain ⟨hkeep, -, -, -⟩ := hdone.latch
    rw [hkeep, hrun] at hhalt
    exact absurd hhalt Bool.false_ne_true

/-! ### The statements about the tick -/

/-- Settles O53: with the instruction gate shut the tick is the timer gate on the state before it, and with it open the
timer gate on what the cycle left, which kept the gate's state. -/
theorem tickRunsGatesInOrder : Obligations.TickRunsGatesInOrder := by
  refine ⟨fun now s hrun hstart hinstr htimer hshut => ?_, fun now s t hopen hcycle hrun => ?_⟩
  · exact ⟨_, hostTick_closed hrun hstart hinstr htimer (instrGateOpen_eq_false_iff.mpr hshut),
      timersAfter_timerGate now s, timerGate_lastInstrTime .., (timerGate_started ..).trans hstart, timerGate_pc ..,
      timerGate_frame now s⟩
  · have htick : hostTick now s = .next (timerGate now { t with lastInstrTime := now }) := by
      simp [hostTick_opens hopen, hcycle, afterInstr, hrun]
    obtain ⟨hstarted, -, -⟩ := cycle_gate hcycle
    exact ⟨_, htick, timersAfter_timerGate now { t with lastInstrTime := now }, timerGate_lastInstrTime ..,
      (timerGate_started ..).trans (hstarted.trans hopen.started), timerGate_pc ..,
      timerGate_withInstrTime_frame now now t⟩

/-- Settles O54: the cycle halted by a raised cause, which wrote the fault latch alone and after which nothing of the
tick runs. -/
theorem faultEndsTick : Obligations.FaultEndsTick := by
  intro now s t hopen hcycle hhalt
  obtain ⟨c, w, rfl⟩ := cycle_halts hopen.running hcycle hhalt
  have htick : hostTick now s = .next (s.raise c w) := by
    rw [hostTick_opens hopen, hcycle, afterInstr_raise]
  exact ⟨htick, rfl, rfl, cycle_gate hcycle⟩

/-- Settles O14: of the ways a tick can end, the one that runs an instruction needs a machine that is neither halted nor
waiting. -/
theorem haltedOrWaitingCoreIdles : Obligations.HaltedOrWaitingCoreIdles := by
  intro now s t hidle h
  rcases hostTick_cases h with ⟨-, rfl⟩ | ⟨-, -, rfl⟩ | ⟨hopen, -⟩ | ⟨-, -, -, rfl⟩
  · exact ⟨rfl, (Frame.refl t).mono (List.nil_subset _)⟩
  · exact ⟨rfl, (Frame.withGate s true now now).mono (by simp)⟩
  · rcases hidle with hhalt | hwait
    · exact absurd (hopen.running.symm.trans hhalt) Bool.false_ne_true
    · exact absurd hopen.awake hwait
  · exact ⟨timerGate_pc .., timerGate_frame now s⟩

/-- Settles O52: the tick's first two cases. -/
theorem firstTickOnlyInitialises : Obligations.FirstTickOnlyInitialises :=
  fun now s =>
    ⟨fun hhalt => hostTick_halted hhalt now,
      fun hrun hstart => ⟨_, hostTick_first hrun hstart now, rfl, rfl, rfl, rfl, Frame.withGate s true now now⟩⟩

end Sys2Proof.Machine
end

section
/-! The host's other transactions and their place in a step (60_exceptions.md R233, R240, R245 to R247): the key events,
clearDirty, the refused calls, and what a halted machine still answers to. -/

namespace Sys2Proof.Machine

/-! ### Steps (R103, R240) -/

/-- Settles O15: an empty list of calls is the idle case of the step. -/
theorem noHostCallNoChange : Obligations.NoHostCallNoChange := fun _ => step_none

/-- Settles O17: a call that is pending is the other case of the step. -/
theorem pendingHostCallComesFirst : Obligations.PendingHostCallComesFirst := fun _ _ _ => step_pending

/-! ### Key events (R245, R246) -/

theorem hostKeyDown_of_lt {k : Nat} (hk : k < 16) (s : State) :
    hostKeyDown k s = .next ({ s with key := s.key.set k true }.completeWait k) :=
  dif_pos hk

theorem hostKeyDown_refused {k : Nat} (hk : 15 < k) (s : State) : hostKeyDown k s = .refused .hostKeyIndex :=
  dif_neg (Nat.not_lt.mpr hk)

theorem hostKeyUp_refused {k : Nat} (hk : 15 < k) (s : State) : hostKeyUp k s = .refused .hostKeyIndex :=
  dif_neg (Nat.not_lt.mpr hk)

/-- A machine that does not wait, or is halted, has no wait to end (R233, R245). -/
theorem completeWait_of_idle {s : State} (hidle : s.wait = none ∨ s.halted = true) (k : Nat) :
    s.completeWait k = s := by
  rcases completeWait_cases s k with heq | ⟨x, hwait, hrun, -⟩
  · exact heq
  · simp [hwait, hrun] at hidle

/-- The end of a wait writes no key. -/
@[simp] theorem keyAt_completeWait (s : State) (k j : Nat) : keyAt (s.completeWait k) j = keyAt s j := by
  rcases completeWait_cases s k with heq | ⟨x, -, -, heq⟩
  · rw [heq]
  · rw [heq]; rfl

/-- Settles O56: the key is set first, and the wait that follows ends in exactly the machines that wait and run. -/
theorem keyDownSetsKeyAndEndsWait : Obligations.KeyDownSetsKeyAndEndsWait := by
  intro k s hk
  have hlt : k < 16 := Nat.lt_succ_of_le hk
  have hkeys : Frame [] [.keys] s { s with key := s.key.set k true } := Frame.withKeys ..
  refine ⟨_, hostKeyDown_of_lt hlt s, fun j _ => ?_, fun hidle => ?_, fun x hwait hrun => ?_⟩
  · rw [keyAt_completeWait, keyAt_set]
  · rw [completeWait_of_idle (s := { s with key := s.key.set k true }) hidle]
    exact ⟨rfl, hkeys⟩
  · rw [completeWait_of_waiting (s := { s with key := s.key.set k true }) hwait hrun]
    exact ⟨getV_setV_key_toNat _ x hlt, rfl, rfl, hkeys.trans (Frame.endWait _ x _)⟩

/-- Settles O57: a key-up is one write to the keys. -/
theorem keyUpOnlyClearsKey : Obligations.KeyUpOnlyClearsKey := by
  intro k s hk
  have hlt : k < 16 := Nat.lt_succ_of_le hk
  exact ⟨_, hostKeyUp_of_lt hlt s, fun j _ => keyAt_set hlt false j, rfl, Frame.withKeys s _⟩

/-! ### Dirty, refused calls and the halted machine (R233, R240, R247) -/

/-- Settles O58: one write, to Dirty. -/
theorem clearDirtyOnlyClearsDirty : Obligations.ClearDirtyOnlyClearsDirty :=
  fun s => ⟨hostClearDirty s, rfl, rfl, rfl, Frame.withDirty s false⟩

/-- Settles O55: the tick's time is compared before its gates, and the key's index before its write. -/
theorem brokenHostContractRefused : Obligations.BrokenHostContractRefused :=
  ⟨fun _ _ hrun hstart hback => hostTick_backward hrun hstart hback,
    fun _ s hk => ⟨hostKeyDown_refused hk s, hostKeyUp_refused hk s⟩⟩

/-- Settles O60, transaction by transaction: a tick, a read and a load that fails answer the same state, and a key event
and clearDirty write the keys or Dirty, since a halted machine ends no wait. -/
theorem haltedUntilResetOrLoad : Obligations.HaltedUntilResetOrLoad := by
  intro c s t hhalt h
  have hsame : Frame [] [.keys, .dirty] s s := (Frame.refl s).mono (List.nil_subset _)
  have hkeys (key : Vector Bool 16) : Frame [] [.keys, .dirty] s { s with key := key } :=
    (Frame.withKeys s key).mono (by simp)
  cases c with
  | reset => exact .inl rfl
  | loadProgram bytes =>
    rcases hostLoad_cases bytes s with ⟨-, hfail⟩ | ⟨hlen, -⟩
    · simp only [hostCall, hfail] at h
      cases h
      exact .inr (.inr ⟨hsame, rfl, hhalt⟩)
    · exact .inr (.inl ⟨bytes, rfl, hlen⟩)
  | tick now =>
    cases (hostTick_halted hhalt now).symm.trans h
    exact .inr (.inr ⟨hsame, rfl, hhalt⟩)
  | keyDown k =>
    obtain ⟨_, rfl⟩ := hostKeyDown_next h
    rw [completeWait_of_idle (s := { s with key := s.key.set k true }) (.inr hhalt)]
    exact .inr (.inr ⟨hkeys _, rfl, hhalt⟩)
  | keyUp k =>
    obtain ⟨_, rfl⟩ := hostKeyUp_next h
    exact .inr (.inr ⟨hkeys _, rfl, hhalt⟩)
  | clearDirty =>
    cases h
    exact .inr (.inr ⟨(Frame.withDirty s false).mono (by simp), rfl, hhalt⟩)
  | read =>
    cases h
    exact .inr (.inr ⟨hsame, rfl, hhalt⟩)

end Sys2Proof.Machine
end

section
/-! Reset and program load (70_reset_and_hazards.md R280, R282): the reset state but for memory, and the program's bytes
written over what reset leaves there. -/

namespace Sys2Proof.Machine

/-- Settles O2: the state `reset()` builds does not depend on the one it is called in, but for the parameters and the
model's own fields. -/
theorem hostResetGivesResetValues : Obligations.HostResetGivesResetValues :=
  fun s => ⟨hostReset s, rfl, resetButMemory_of_eq rfl, resetByteIs_of_mem_nil rfl, rfl⟩

/-- What reset leaves at an address depends on the parameters and the byte there alone. -/
theorem resetByteIs_congr {t u : State} {a : Nat} (h : ResetByteIs t a) (hparams : u.params = t.params)
    (hread : u.readByte a = t.readByte a) : ResetByteIs u a := by
  unfold ResetByteIs
  rw [hparams, hread]
  exact h

/-- Settles O59: a program that fits is copied below the end of memory, so the copy writes its own addresses of the reset
machine and nothing else. -/
theorem loadProgramResetsAndCopies : Obligations.LoadProgramResetsAndCopies := by
  intro bytes s
  rcases hostLoad_cases bytes s with ⟨hlong, hload⟩ | ⟨hfits, hload⟩
  · exact ⟨fun _ => ⟨hload, by rw [hostCall, hload]⟩, fun hle => absurd hlong (Nat.not_lt.mpr hle)⟩
  · refine ⟨fun hlt => absurd hfits (Nat.not_le.mpr hlt), fun _ => ⟨by rw [hload], ?_⟩⟩
    obtain ⟨m, hcopy, -, hbytes, hrest⟩ :=
      copyBytes_ok (s := hostReset s) (a := 0x200) (bs := bytes) (by omega) (Legal.hostReset s).mem_wf
    refine ⟨{ hostReset s with mem := m }, by rw [hostCall, hload, hcopy], resetButMemory_of_eq rfl, rfl, hbytes,
      fun a ha => ?_⟩
    have hreset : ResetByteIs (hostReset s) a := resetByteIs_of_mem_nil rfl a
    exact resetByteIs_congr hreset rfl (hrest a ha)

end Sys2Proof.Machine
end

section
/-! The spacing of instructions (70_reset_and_hazards.md R289): the transactions that keep the core as it was, and the time
a tick that runs an instruction leaves in the gate. -/

namespace Sys2Proof

open Sys2Proof.Machine

/-- The pending transactions are in no part of the state. -/
theorem Part.Same.of_withCalls {s t : State} {l : List HostCall} {p : Part}
    (h : Part.Same { s with hostCalls := l } t p) : Part.Same s t p := by
  cases p with
  | _ => exact h

/-- From `s` to `t` no instruction ran and nothing stood in for one: at most the keys, Dirty, the timers and the gate
changed, and the time of the last instruction was written only to start the machine. -/
structure CoreKept (s t : State) : Prop where
  frame : Frame [] [.keys, .dirty, .delay, .sound, .gate] s t
  pc : t.pc = s.pc
  instrTime : s.started = true → t.lastInstrTime = s.lastInstrTime

theorem CoreKept.refl (s : State) : CoreKept s s :=
  ⟨(Frame.refl s).mono (List.nil_subset _), rfl, fun _ => rfl⟩

theorem CoreKept.withKeys (s : State) (key : Vector Bool 16) : CoreKept s { s with key := key } :=
  ⟨(Frame.withKeys s key).mono (by simp), rfl, fun _ => rfl⟩

theorem CoreKept.withDirty (s : State) (dirty : Bool) : CoreKept s { s with dirty := dirty } :=
  ⟨(Frame.withDirty s dirty).mono (by simp), rfl, fun _ => rfl⟩

/-- The first tick writes the gate's times of a machine that was not started (R241). -/
theorem CoreKept.start {s : State} (hstart : s.started = false) (now : BitVec 64) :
    CoreKept s { s with started := true, lastInstrTime := now, lastTimerTime := now } :=
  ⟨(Frame.withGate s true now now).mono (by simp), rfl,
    fun hstarted => absurd (hstart.symm.trans hstarted) Bool.false_ne_true⟩

theorem CoreKept.timerGate (now : BitVec 64) (s : State) : CoreKept s (timerGate now s) :=
  ⟨(timerGate_frame now s).mono (by simp), timerGate_pc .., fun _ => timerGate_lastInstrTime ..⟩

end Sys2Proof

namespace Sys2Proof.Machine

/-- An instruction that did not halt the machine leaves its tick's time in the gate (R242). -/
theorem afterInstr_lastInstrTime {now : BitVec 64} {r : Result} {t : State} (h : afterInstr now r = .next t)
    (hrun : t.halted = false) : t.lastInstrTime = now := by
  cases r with
  | next u =>
    simp only [afterInstr] at h
    split_ifs at h with hhalt
    · cases h
      exact absurd (hrun.symm.trans hhalt) Bool.false_ne_true
    · cases h
      exact timerGate_lastInstrTime ..
  | fault f => cases h
  | refused r => cases h

theorem hostTick_opens_lastInstrTime {now : BitVec 64} {s t : State} (hopen : GateOpens now s)
    (h : hostTick now s = .next t) (hrun : t.halted = false) : t.lastInstrTime = now :=
  afterInstr_lastInstrTime ((hostTick_opens hopen).symm.trans h) hrun

/-- A tick whose instruction gate does not fire keeps the core (R241, R244). -/
theorem hostTick_coreKept_or_opens {now : BitVec 64} {s t : State} (h : hostTick now s = .next t) :
    CoreKept s t ∨ GateOpens now s := by
  rcases hostTick_cases h with ⟨-, rfl⟩ | ⟨-, hstart, rfl⟩ | ⟨hopen, -⟩ | ⟨-, -, -, rfl⟩
  · exact .inl (CoreKept.refl t)
  · exact .inl (CoreKept.start hstart now)
  · exact .inr hopen
  · exact .inl (CoreKept.timerGate now s)

/-- The transactions that do not keep the core: reset, a load that succeeds, the key that ends a wait, and a tick whose
instruction gate fires. -/
theorem hostCall_coreKept_or {c : HostCall} {s t : State} (h : hostCall c s = .next t) :
    CoreKept s t ∨ c = .reset ∨ (∃ bytes, c = .loadProgram bytes ∧ bytes.length ≤ 3584) ∨
      (∃ k, c = .keyDown k ∧ s.wait ≠ none) ∨
      ∃ now, c = .tick now ∧ GateOpens now s ∧ (t.halted = false → t.lastInstrTime = now) := by
  cases c with
  | reset => exact .inr (.inl rfl)
  | loadProgram bytes =>
    rcases hostLoad_cases bytes s with ⟨-, hload⟩ | ⟨hfits, -⟩
    · rw [hostCall, hload] at h
      cases h
      exact .inl (CoreKept.refl s)
    · exact .inr (.inr (.inl ⟨bytes, rfl, hfits⟩))
  | tick now =>
    rcases hostTick_coreKept_or_opens h with hkept | hopen
    · exact .inl hkept
    · exact .inr (.inr (.inr (.inr ⟨now, rfl, hopen, hostTick_opens_lastInstrTime hopen h⟩)))
  | keyDown k =>
    by_cases hwait : s.wait = none
    · obtain ⟨_, rfl⟩ := hostKeyDown_next h
      rw [completeWait_of_idle (s := { s with key := s.key.set k true }) (.inl hwait)]
      exact .inl (CoreKept.withKeys s _)
    · exact .inr (.inr (.inr (.inl ⟨k, rfl, hwait⟩)))
  | keyUp k =>
    obtain ⟨_, rfl⟩ := hostKeyUp_next h
    exact .inl (CoreKept.withKeys s _)
  | clearDirty =>
    cases h
    exact .inl (CoreKept.withDirty s false)
  | read =>
    cases h
    exact .inl (CoreKept.refl s)

/-- After a tick that ran an instruction, the gate fires again only more than the gap later (R289). -/
theorem gateOpens_spaced {a b : BitVec 64} {s t : State} (hopen : GateOpens a s) (h : hostTick a s = .next t)
    (hrun : t.halted = false) (hnext : GateOpens b t) : a.toNat + s.params.instrGapMs < b.toNat := by
  have hgap := hnext.gap
  rw [hostTick_params h, hostTick_opens_lastInstrTime hopen h hrun] at hgap
  omega

/-- Settles O16: a step is the host's next transaction or nothing, on a state that differs in the pending calls alone, of
which neither the core nor the gate is a part. -/
theorem instructionsNeedSpacedTicks : Obligations.InstructionsNeedSpacedTicks := by
  refine ⟨fun s t h => ?_, fun a b s t hopen h hrun hnext => gateOpens_spaced hopen h hrun hnext⟩
  rcases step_cases h with ⟨-, rfl⟩ | ⟨c, rest, hcalls, hcall⟩
  · exact .inl ⟨fun _ => rfl, rfl, (CoreKept.refl t).frame.parts_same, fun _ => rfl⟩
  · rcases hostCall_coreKept_or hcall with hkept | rfl | ⟨bytes, rfl, hfits⟩ | ⟨k, rfl, hwait⟩ |
      ⟨now, rfl, hopen, htime⟩
    · exact .inl ⟨fun r => hkept.frame.regs_same r List.not_mem_nil, hkept.pc,
        fun p hp => (hkept.frame.parts_same p hp).of_withCalls, hkept.instrTime⟩
    · exact .inr (.inl ⟨rest, hcalls⟩)
    · exact .inr (.inr (.inl ⟨bytes, rest, hcalls, hfits⟩))
    · exact .inr (.inr (.inr (.inl ⟨k, rest, hcalls, hwait⟩)))
    · exact .inr (.inr (.inr (.inr ⟨now, rest, hcalls, hopen.withCalls s.hostCalls, htime⟩)))

end Sys2Proof.Machine
end
